-- ==== Sys2Proof/Word.lean ====
section
/-! DEFINITION. The two widths of data of the Bit-Span Extractor: a buffer byte (`BYTEW = 8`) and
an extracted value (`OUTW = 32`), both fixed by rule R6 of 00_scope.md and both unsigned (R9). -/

namespace Sys2Proof

/-- A cell of the buffer, an unsigned 8-bit value (20_memory.md R40, R47). -/
abbrev Byte := BitVec 8

/-- A value the block returns, an unsigned 32-bit pattern (10_state.md R30, 40_extract.md R88). -/
abbrev Word := BitVec 32

end Sys2Proof
end

