-- ==== Sys2Proof/Machine/Bits.lean ====
section
/-! DEFINITION. The operators on naturals that the rules are written in: `mask`, slices and
concatenation (00_scope.md R10, R11). -/

namespace Sys2Proof

/-- `mask(n) = 2^n - 1`, exact at every width, so `mask(0) = 0` and `mask(32) = 0xFFFF_FFFF`
(R10, 70_reset_and_hazards.md R170). -/
def mask (n : Nat) : Nat := 2 ^ n - 1

/-- `v[hi:lo]`, bit 0 the least significant (R11). -/
def slice (v hi lo : Nat) : Nat := (v >>> lo) &&& mask (hi - lo + 1)

/-- The concatenation `{a, b}` with `b` of `n` bits (R11). -/
def cat (a b n : Nat) : Nat := (a <<< n) ||| b

/-- `mask(n)` on the 8 wires of a byte (41_chunk_datapath.md R102). -/
def mask8 (n : Nat) : Byte := BitVec.ofNat 8 (mask n)

end Sys2Proof
end

