-- ==== Sys2Proof/Syntax.lean ====
section
/-! DEFINITION. The operations of the block as syntax: one row in spec/opcode_table.json, so one
constructor (30_encoding.md R67). -/

namespace Sys2Proof

/-- A decoded request. -/
inductive Instr where
  /-- EXTRACT, written `extract(buf, start, end)` (R70). Its operands are the two inclusive bit
  positions, unsigned and of no fixed width (R9, R64); `stopAt` is the spec's `end`. -/
  | extract (start stopAt : Nat)
  deriving DecidableEq, Repr

end Sys2Proof
end

