-- ==== Sys2Proof/Config.lean ====
section
/-! DEFINITION. What is fixed when the block is built: the parameters of 00_scope.md section 3, and
the value the spec leaves open. `HANDSHAKE` (70_reset_and_hazards.md R175) has no constant here: no
rule depends on it (log 2). -/

namespace Sys2Proof.Config

/-- `POSW`, the width of `start` and of `end`, at the reference instantiation of R7 (log 1). -/
abbrev posw : Nat := 32

/-- `LENW`, the width of the buffer length, at the reference instantiation of R7 (log 1). -/
abbrev lenw : Nat := 29

/-- `MAXW`, the widest range a request may ask for (R6, R82). -/
abbrev maxw : Nat := 32

/-- The most chunk steps a walk takes, one for each byte of the result (41_chunk_datapath.md R118,
R122). -/
abbrev maxSteps : Nat := 4

/-- What stands on the `value` output while no valid result does: any value, R63 and decision D13
(log 6). The argument tells one draw from the next. -/
opaque freeValue : Nat → Word

end Sys2Proof.Config
end

