-- ==== Sys2Proof/WellFormed.lean ====
section
/-! DEFINITION. Which terms of `Instr` a host can present: both positions fit the `POSW` bits of
their field (10_state.md R29, 30_encoding.md R61). Nothing else is asked: a request whose values
break a precondition is still well formed and has a defined response (R68). -/

namespace Sys2Proof

/-- Both operands fit in `posw` bits, for any choice of the parameter `POSW`. -/
def Instr.fits (posw : Nat) : Instr → Bool
  | .extract start stopAt => decide (start < 2 ^ posw) && decide (stopAt < 2 ^ posw)

/-- Well formed at the reference instantiation. -/
def Instr.wellFormed (i : Instr) : Bool := i.fits Config.posw

end Sys2Proof
end

