-- ==== Sys2Proof/Decode.lean ====
section
/-! DEFINITION. The request format `REQ` (30_encoding.md R61), its decoder (R67) and its encoder.
Both are written for any `POSW`; the unsuffixed names are the reference instantiation. A request is
a word on a port, not bytes in a memory, so it has no byte order. -/

namespace Sys2Proof

/-- A request word at the reference instantiation, `2 x POSW = 64` bits (R61). -/
abbrev ReqWord := BitVec 64

/-- Why a row of bits is no request word. Neither reason can occur on a port of `2 x POSW` wires:
there, every word is a request (R68). Safe: no instruction is turned away. -/
inductive DecodeRefusal where
  /-- More bits than the `2 x POSW` of a request. -/
  | widerThanRequest
  /-- A value that does not fit the number of bits it is said to have. -/
  | valueOutsideWidth
  deriving DecidableEq, Repr

/-- `decode(REQ) = EXTRACT(start = REQ[2 POSW - 1 : POSW], end = REQ[POSW - 1 : 0])`: the identity
on the two fields, total on any bits (R61, R67). -/
def decodeAt (posw w : Nat) : Instr :=
  .extract (slice w (2 * posw - 1) posw) (slice w (posw - 1) 0)

/-- The decoder of the block. -/
def decode (w : ReqWord) : Instr := decodeAt Config.posw w.toNat

/-- The decoder on a number said to have `nbits` bits; bits above them are 0. -/
def decodeBits (nbits w : Nat) : Except DecodeRefusal Instr :=
  if 2 * Config.posw < nbits then .error .widerThanRequest
  else if 2 ^ nbits ≤ w then .error .valueOutsideWidth
  else .ok (decode (BitVec.ofNat _ w))

/-- What the decoder reads from a word of the opcode table, none where it refuses. -/
def decodeTableWord (nbits w : Nat) : Option Instr :=
  match decodeBits nbits w with
  | .ok i => some i
  | .error _ => none

/-- `{start, end}` with `end` of `POSW` bits (R61). -/
def encodeAt (posw : Nat) : Instr → Nat
  | .extract start stopAt => cat start stopAt posw

/-- The encoder at the reference instantiation. -/
def encode (i : Instr) : ReqWord := BitVec.ofNat _ (encodeAt Config.posw i)

end Sys2Proof
end

