-- ==== Sys2Proof/Machine/State.lean ====
section
/-! DEFINITION. The state: the block's inputs, its outputs and the variables of a transaction in
progress. The block has no architectural state at all (10_state.md R20 to R24, R32). -/

namespace Sys2Proof.Machine

/-- The bytes of a buffer as (index, byte) pairs in one canonical form: indices strictly rising,
and no pair for a byte equal to `Memory.unlisted` (log 4). -/
abbrev Memory := List Host.Cell

/-- What an index without a pair reads as (log 4). -/
def Memory.unlisted : Byte := 0

/-- Indices rise strictly and every index is at least `least`; no byte equals `unlisted`. -/
def Memory.wfFrom (least : Nat) : Memory → Bool
  | [] => true
  | (a, b) :: rest => decide (least ≤ a) && decide (b ≠ Memory.unlisted) && Memory.wfFrom (a + 1) rest

/-- The canonical form. -/
def Memory.wf (m : Memory) : Bool := Memory.wfFrom 0 m

/-- The buffer input `B` with its length `len` in bytes (10_state.md R29, 20_memory.md R40). -/
structure Buffer where
  /-- The length input, a count of bytes. -/
  len : Nat
  /-- The bytes `B[0]` to `B[len - 1]`. -/
  mem : Memory
  deriving DecidableEq, Repr

/-- Canonical bytes, all of them inside the buffer. -/
def Buffer.wf (b : Buffer) : Bool := Memory.wf b.mem && b.mem.all fun c => decide (c.1 < b.len)

/-- What a host presents: the request word, and beside it the buffer with its length (30_encoding.md
R61), fresh each time (00_scope.md R8). -/
structure Request where
  /-- The buffer the range is taken from; it stays as presented until the response (20_memory.md
  R52). -/
  buffer : Buffer
  /-- The request word `REQ`. -/
  word : ReqWord
  deriving DecidableEq, Repr

/-- The three error kinds (60_exceptions.md R130 to R133). -/
inductive ErrKind where
  /-- `start > end` (R130). -/
  | invalidRange
  /-- More than 32 bits (R131). -/
  | widthExceeded
  /-- `end ≥ 8 x len` (R132). -/
  | outOfBounds
  deriving DecidableEq, Repr

/-- A response, `Ok(v)` or `Err(kind)` (00_scope.md R14, 30_encoding.md R62). -/
inductive Response where
  | ok (value : Word)
  | err (kind : ErrKind)
  deriving DecidableEq, Repr

/-- The transaction-local variables of the chunk walk (10_state.md R25 to R27). -/
structure Walk where
  /-- The cursor, a bit position. -/
  cur : Nat
  /-- How many chunks have been added to `acc`. -/
  k : Nat
  /-- The accumulating result. -/
  acc : Word
  deriving DecidableEq, Repr

/-- The state of the block and of its ports. -/
structure State where
  /-- The buffer input of the transaction being served; the host's, read-only to the block (R31, R42). -/
  buffer : Buffer
  /-- The requests presented and not yet served, of any number of hosts, in the order in which they are
  served. None can be withdrawn (70_reset_and_hazards.md R174, 60_exceptions.md R144; log 2). -/
  requests : List Request
  /-- The walk in progress, none between transactions (R25). -/
  walk : Option Walk
  /-- The responses produced and not yet taken by a host, oldest first; the outputs `status` and
  `value` show the oldest (R30, R33, 70_reset_and_hazards.md R175; log 2). -/
  responses : List Response
  /-- The model's own counter: which free value the `value` output shows (log 6). -/
  draws : Nat
  deriving DecidableEq, Repr

/-- Why the block stops. -/
inductive Fault where
  /-- Raised by the read primitive for an index that is not below `len`: nothing exists there
  (20_memory.md R40, R47; log 9). Safe: a stop where the spec defines no byte. No step raises it. -/
  | bufferIndexOutside
  deriving DecidableEq, Repr

/-- Why an instruction has no meaning. -/
inductive Refusal where
  /-- An arm of `exec` with no meaning yet. Safe: nothing is claimed of it. No arm uses it. -/
  | notModelled (mnemonic : String)
  deriving DecidableEq, Repr

/-- The block right after reset: idle, no request in progress, no response pending
(70_reset_and_hazards.md R160). The empty buffer and `draws` are the model's choice (log 5, 6). -/
def State.reset : State :=
  { buffer := { len := 0, mem := [] }, requests := [], walk := none, responses := [], draws := 0 }

end Sys2Proof.Machine
end

