-- ==== Sys2Proof/Machine/Operands.lean ====
section
/-! DEFINITION. What is formed from the operands before any byte is read: the fields of a bit
position (30_encoding.md R65), the width, and the three checks (40_extract.md R81 to R84). All of it
is exact arithmetic on naturals, so nothing wraps (30_encoding.md R66, 70_reset_and_hazards.md
R172). -/

namespace Sys2Proof.Machine

/-- The index of the byte that holds a bit position (R65). -/
def byteIndex (p : Nat) : Nat := p / 8

/-- The in-byte position, 0 the most significant bit of the byte (R65, 00_scope.md R12). -/
def inByte (p : Nat) : Nat := p % 8

/-- `validBitSize`: how many bits of the cursor's byte lie at or before the cursor (R106). -/
def validBits (p : Nat) : Nat := inByte p + 1

/-- How many bits lie from `start` to `p`, both inclusive: the width of a range, and `rem` in the
walk. Formed only where `start ≤ p` (R66, R106). -/
def spanWidth (start p : Nat) : Nat := p - start + 1

/-- A request that raises no error (40_extract.md R84). -/
abbrev Valid (start stopAt len : Nat) : Prop :=
  start ≤ stopAt ∧ stopAt - start ≤ 31 ∧ stopAt < 8 * len

/-- The three checks in their order; the first that fails is the one reported (R81 to R84,
60_exceptions.md R136). -/
def check (start stopAt len : Nat) : Option ErrKind :=
  if start > stopAt then some .invalidRange
  else if spanWidth start stopAt > Config.maxw then some .widthExceeded
  else if stopAt ≥ 8 * len then some .outOfBounds
  else none

/-- The three checks as wires of the reference instantiation form them: `start ≤ end` first, then the
difference, which fits `POSW` bits, against 31, then `end` against `8 x len` in `LENW + 3` bits, so
that nothing wraps (R66, 70_reset_and_hazards.md R172). A statement holds it to `check`. -/
def checkWires (start stopAt : BitVec Config.posw) (len : BitVec Config.lenw) : Option ErrKind :=
  if stopAt < start then some .invalidRange
  else if 31 < stopAt - start then some .widthExceeded
  else if len.setWidth (Config.lenw + 3) <<< 3 ≤ stopAt then some .outOfBounds
  else none

end Sys2Proof.Machine
end

