-- ==== Sys2Proof/Machine/Ops.lean ====
section
/-! DEFINITION. The shared operations: reading the buffer, the ports, responding, raising an error, and
reset. There is no write primitive (20_memory.md R42). -/

namespace Sys2Proof.Machine

/-- The outcome of a step of this block. -/
abbrev StepOutcome := Host.Outcome State Fault Refusal

/-! ### The buffer -/

/-- The byte listed at an index, or what an unlisted index reads as. -/
def Memory.lookup : Memory → Nat → Byte
  | [], _ => Memory.unlisted
  | (a, b) :: rest, i => if a = i then b else Memory.lookup rest i

/-- `B[i]` (20_memory.md R47), used by the rules only for `i < len`. -/
def Buffer.byteAt (b : Buffer) (i : Nat) : Byte := Memory.lookup b.mem i

/-- The read primitive `MemRead(i, 1)`, defined only inside the buffer (R47). -/
def Buffer.read (b : Buffer) (i : Nat) : Option Byte :=
  if i < b.len then some (b.byteAt i) else none

/-- One byte read by a step: the step goes on with the byte, or stops where nothing exists. -/
def withByte (i : Nat) (s : State) (go : Byte → StepOutcome) : StepOutcome :=
  match s.buffer.read i with
  | some byte => go byte
  | none => .fault .bufferIndexOutside

/-- The canonical pairs for bytes laid out from index `i`. -/
def Memory.layOut (i : Nat) : List Byte → Memory
  | [] => []
  | b :: rest =>
    if b = Memory.unlisted then Memory.layOut (i + 1) rest else (i, b) :: Memory.layOut (i + 1) rest

/-- A buffer given as its bytes in index order (30_encoding.md R70). -/
def Buffer.ofBytes (bytes : List Byte) : Buffer :=
  { len := bytes.length, mem := Memory.layOut 0 bytes }

/-- The bytes of a buffer in index order. -/
def Buffer.toBytes (b : Buffer) : List Byte := (List.range b.len).map b.byteAt

/-! ### The ports -/

/-- A host presents a request. It waits behind those presented before it: presenting one loses,
withdraws or overtakes none (70_reset_and_hazards.md R174, R175; log 2). -/
def present (r : Request) (s : State) : State := { s with requests := s.requests ++ [r] }

/-- A request word stands first in line, with the buffer that is on the buffer input. The requests
that wait keep their places behind it. -/
def presentWordFirst (w : ReqWord) (s : State) : State :=
  { s with requests := { buffer := s.buffer, word := w } :: s.requests }

/-- The block takes the request that waits longest, with its buffer, and so serves each once (R175);
none when it is idle. -/
def fetch (s : State) : Option (ReqWord × State) :=
  match s.requests with
  | [] => none
  | r :: rest => some (r.word, { s with requests := rest, buffer := r.buffer })

/-- A host takes the oldest response, none when none is pending. The next one then comes to the
outputs, with a free value of its own where it is an error (log 6). -/
def collectResponse (s : State) : Option Response × State :=
  (s.responses.head?, { s with responses := s.responses.tail, draws := s.draws + 1 })

/-! ### Responding -/

/-- A response is produced behind those still pending, and the walk variables are gone (10_state.md
R25, R30). -/
def respond (r : Response) (s : State) : State :=
  { s with walk := none, responses := s.responses ++ [r] }

/-- TAKING AN EXCEPTION. An error is the response to the request that caused it and nothing more:
nothing is saved, control goes nowhere, no mode changes (60_exceptions.md R138, R139). The value bits
of an error are a fresh free value (30_encoding.md R63, log 6). There is no return from one, because
nothing was entered (R141). -/
def raise (kind : ErrKind) (s : State) : State :=
  { respond (.err kind) s with draws := s.draws + 1 }

/-! ### Reset -/

/-- Reset strikes: requests in progress are dropped without a response, no response stays pending, and
the buffer is not touched (70_reset_and_hazards.md R160 to R162). -/
def resetBlock (s : State) : State :=
  { s with requests := [], walk := none, responses := [], draws := s.draws + 1 }

end Sys2Proof.Machine
end

