-- ==== Sys2Proof/Machine/Walk.lean ====
section
/-! DEFINITION. The datapath: the chunk walk of 41_chunk_datapath.md, with its barrel shifter
(R101), its dynamic masks (R102) and its byte-boundary test (R108). "low" and "high" are said by
significance, as R104 settles. -/

namespace Sys2Proof.Machine

/-- The walk variables are loaded for a valid request (R105). -/
def beginWalk (stopAt : Nat) (s : State) : State :=
  { s with walk := some { cur := stopAt, k := 0, acc := 0 } }

/-- The `vbs` most significant bits of the cursor's byte, moved down to bit 0 (R107). -/
def lowPart (byte : Byte) (vbs : Nat) : Byte := (byte >>> (8 - vbs)) &&& mask8 vbs

/-- The `8 - vbs` least significant bits of the byte before, moved up above `low` (R110). -/
def highPart (byte : Byte) (vbs : Nat) : Byte := (byte &&& mask8 (8 - vbs)) <<< vbs

/-- The byte-boundary test: the cursor's byte also holds `start` (R108). -/
def sameByte (start cur : Nat) : Bool := byteIndex cur == byteIndex start

/-- A chunk is added at byte `k` of the result (R112). -/
def accumulate (w : Walk) (chunk : Byte) : Word := w.acc + (chunk.setWidth 32 <<< (8 * w.k))

/-- The last chunk, cut to the bits that belong to the range, ends the walk with `Ok(acc)` (R109,
R111, R114). -/
def finishWalk (start : Nat) (w : Walk) (chunk : Byte) (s : State) : State :=
  respond (.ok (accumulate w (chunk &&& mask8 (spanWidth start w.cur)))) s

/-- The walk goes on eight positions nearer to `start` (R112, R113). -/
def advanceWalk (w : Walk) (chunk : Byte) (s : State) : State :=
  { s with walk := some { cur := w.cur - 8, k := w.k + 1, acc := accumulate w chunk } }

/-- One chunk step (R106 to R114): the body of the loop of R115. With no walk in progress nothing
happens, as in a stage of R122 that is not active. -/
def walkStep (start : Nat) (s : State) : StepOutcome :=
  match s.walk with
  | none => .next s
  | some w =>
    withByte (byteIndex w.cur) s fun here =>
      if sameByte start w.cur then
        .next (finishWalk start w (lowPart here (validBits w.cur)) s)
      else
        withByte (byteIndex w.cur - 1) s fun before =>
          let chunk := lowPart here (validBits w.cur) + highPart before (validBits w.cur)
          if spanWidth start w.cur ≤ 8 then
            .next (finishWalk start w chunk s)
          else
            .next (advanceWalk w chunk s)

/-- A number of chunk steps one after another: the bounded loop of R115. -/
def runWalk (start : Nat) : Nat → State → StepOutcome
  | 0, s => .next s
  | n + 1, s =>
    match walkStep start s with
    | .next t => runWalk start n t
    | .fault f => .fault f
    | .refused r => .refused r

/-- The byte indices a chunk step reads: the cursor's byte, and in a cross-byte step the byte before
(R120). -/
def stepReads (start cur : Nat) : List Nat :=
  if sameByte start cur then [byteIndex cur] else [byteIndex cur, byteIndex cur - 1]

/-- The byte indices the whole walk of a valid request reads, step by step (R118, R120). -/
def walkReads (start stopAt : Nat) : List Nat :=
  (List.range ((spanWidth start stopAt + 7) / 8)).flatMap fun j => stepReads start (stopAt - 8 * j)

end Sys2Proof.Machine
end

