-- ==== Sys2Proof/Machine/Extract.lean ====
section
/-! DEFINITION. The meaning of EXTRACT (40_extract.md R80): the three checks, and for a valid
request the chunk walk, which forms `field(B, start, end)` (41_chunk_datapath.md R100, R121). One
transaction is one step (70_reset_and_hazards.md R174). -/

namespace Sys2Proof.Machine

/-- EXTRACT. Every request ends in a next state that holds its response. -/
def execExtract (start stopAt : Nat) (s : State) : StepOutcome :=
  match check start stopAt s.buffer.len with
  | some kind => .next (raise kind s)
  | none => runWalk start Config.maxSteps (beginWalk stopAt s)

end Sys2Proof.Machine
end

