-- ==== Sys2Proof/Machine/Dispatch.lean ====
section
/-! DEFINITION. From a decoded request to its meaning, one arm for each constructor. -/

namespace Sys2Proof.Machine

/-- The meaning of a decoded request. -/
def exec (i : Instr) (s : State) : Host.Outcome State Fault Refusal :=
  match i with
  | .extract start stopAt => Sys2Proof.Machine.execExtract start stopAt s

end Sys2Proof.Machine
end

