-- ==== Sys2Proof/Machine/Step.lean ====
section
/-! DEFINITION. One step: the transaction of the request presented to the block
(70_reset_and_hazards.md R174). -/

namespace Sys2Proof.Machine

/-- An idle block stays as it is: no response is produced until a request is presented (10_state.md
R33). Otherwise the request first in line is taken, decoded and served, whatever its bits
(30_encoding.md R67). -/
def step (s : State) : Host.Outcome State Fault Refusal :=
  match fetch s with
  | none => .next s
  | some (w, t) => exec (decode w) t

/-- The request first in line is the given word, on the buffer that is on the buffer input; those that
wait keep waiting. A program reaches this block only as requests that a host
presents; nothing is loaded and nothing runs before the first of them (log 3). -/
def State.withFetchWord (s : State) (nbits w : Nat) : State :=
  presentWordFirst (BitVec.ofNat _ (w % 2 ^ nbits)) s

end Sys2Proof.Machine
end

