-- ==== Sys2Proof/Machine/Flags.lean ====
section
/-! DEFINITION. The block has no flags (10_state.md R22). What tells a host how a request went is
the response on the outputs: the status code and the packed word `RSP` (30_encoding.md R62, R63). -/

namespace Sys2Proof.Machine

/-- The code of an error kind (R62). -/
def errCode : ErrKind → BitVec 2
  | .invalidRange => 1
  | .widthExceeded => 2
  | .outOfBounds => 3

/-- The status code of a response; 0 is `OK` (R62). -/
def statusCode : Response → BitVec 2
  | .ok _ => 0
  | .err kind => errCode kind

/-- The `status` output, that of the oldest response pending; without meaning while none is (10_state.md
R33, log 2). -/
def State.statusPort (s : State) : Option (BitVec 2) := s.responses.head?.map statusCode

/-- The `value` output: the value of a valid request, a free value otherwise (R63, log 6). -/
def State.valuePort (s : State) : Word :=
  match s.responses with
  | .ok value :: _ => value
  | _ => Config.freeValue s.draws

/-- The response word, `RSP[33:32] = status` and `RSP[31:0] = value` (R63). -/
def State.rspPort (s : State) : Option (BitVec 34) := s.statusPort.map fun code => code ++ s.valuePort

end Sys2Proof.Machine
end

