-- ==== Sys2Proof/Machine/Field.lean ====
section
/-! DEFINITION. What a request returns, at the level a host sees it: the bit numbering of the buffer
(20_memory.md R43), the field of a range (R44), and the whole operation as a function of the request
(40_extract.md R80). The step of the machine forms the same response by the chunk walk. -/

namespace Sys2Proof.Machine

/-- `bit(B, p)`: position 0 is the most significant bit of byte 0 (R43). -/
def Buffer.bit (b : Buffer) (p : Nat) : Nat :=
  ((b.byteAt (byteIndex p)).toNat >>> (7 - inByte p)) &&& 1

/-- `field(B, s, e)`, the sum of `bit(B, p) << (e - p)` over `p` from `s` to `e`; 0 for `s > e`
(R44). -/
def Buffer.field (b : Buffer) (s e : Nat) : Nat :=
  ((List.range (e + 1 - s)).map fun i => b.bit (s + i) <<< (e - (s + i))).sum

/-- The response to a request (40_extract.md R80). -/
def answer (b : Buffer) (start stopAt : Nat) : Response :=
  match check start stopAt b.len with
  | some kind => .err kind
  | none => .ok (BitVec.ofNat 32 (b.field start stopAt))

end Sys2Proof.Machine
end

