-- ==== Sys2Proof/Machine/Forms.lean ====
section
/-! DEFINITION. The other definitions the spec gives of the value of a valid request: the per-bit
form (40_extract.md R86), the window form (R89), the unrolled form (41_chunk_datapath.md R122), and
the source's walk as literally worded, where it has a meaning (R117). The machine uses none of
them: statements hold them to the field of the range. -/

namespace Sys2Proof.Machine

/-- The per-bit form: one bit at a time from `start` to `end`, shifted into an accumulator (R86). -/
def oracle (b : Buffer) (start stopAt : Nat) : Nat :=
  (List.range' start (stopAt + 1 - start)).foldl (fun a p => (a <<< 1) ||| b.bit p) 0

/-- Byte `back` places before byte `e8` in the window, 0 before the first byte of the range (R89). -/
def windowByte (b : Buffer) (start e8 back : Nat) : Byte :=
  if byteIndex start + back ≤ e8 then b.byteAt (e8 - back) else 0

/-- The 40-bit window of the five bytes that end at byte `end / 8` (R89). -/
def window (b : Buffer) (start stopAt : Nat) : BitVec 40 :=
  windowByte b start (byteIndex stopAt) 4 ++ windowByte b start (byteIndex stopAt) 3 ++
    windowByte b start (byteIndex stopAt) 2 ++ windowByte b start (byteIndex stopAt) 1 ++
    windowByte b start (byteIndex stopAt) 0

/-- One barrel shift and one mask of the window (R89). -/
def windowForm (b : Buffer) (start stopAt : Nat) : Nat :=
  ((window b start stopAt).toNat >>> (7 - inByte stopAt)) &&& mask (spanWidth start stopAt)

/-- Stage `i` of the unrolled form: byte `i` of the result, 0 when the stage is not active (R122). -/
def stageChunk (b : Buffer) (start stopAt i : Nat) : Byte :=
  let bi := byteIndex stopAt - i
  let upper : Byte := if bi > byteIndex start then b.byteAt (bi - 1) else 0
  let pair : BitVec 16 := upper ++ b.byteAt bi
  if 8 * i < spanWidth start stopAt then
    BitVec.ofNat 8 ((pair >>> (7 - inByte stopAt)).toNat &&& mask (min 8 (spanWidth start stopAt - 8 * i)))
  else 0

/-- The four stages side by side (R122). -/
def unrolledForm (b : Buffer) (start stopAt : Nat) : Word :=
  stageChunk b start stopAt 3 ++ stageChunk b start stopAt 2 ++ stageChunk b start stopAt 1 ++
    stageChunk b start stopAt 0

/-- The source's walk as literally worded, on at most `fuel` steps: the value and the number of
steps, or none where the wording asks for a mask of negative width and so has no meaning. A chunk of
mask width 0 contributes 0 at any shift (R117, log 10). -/
def literalWalk (b : Buffer) (start : Nat) (fuel cur k acc : Nat) : Option (Nat × Nat) :=
  match fuel with
  | 0 => none
  | fuel + 1 =>
    let low := (lowPart (b.byteAt (byteIndex cur)) (validBits cur)).toNat
    if sameByte start cur then
      if cur + 1 < start then none
      else some (acc + ((low &&& mask (cur + 1 - start)) <<< (8 * k)), k + 1)
    else
      let high := (highPart (b.byteAt (byteIndex cur - 1)) (validBits cur)).toNat
      literalWalk b start fuel (cur - 8) (k + 1) (acc + ((low + high) <<< (8 * k)))

end Sys2Proof.Machine
end

