-- ==== Sys2Proof/Machine/Session.lean ====
section
/-! DEFINITION. What hosts do with the block: present requests and take the responses. The requests
of any number of hosts wait in one line, in any interleaving (60_exceptions.md R144). -/

namespace Sys2Proof.Machine

/-- The response of a request taken alone: a function of the request and nothing else (40_extract.md
R80). -/
def answerOf (r : Request) : Response :=
  match decode r.word with
  | .extract start stopAt => answer r.buffer start stopAt

/-- What hosts have coming: the responses not yet taken, then those of the requests not yet served. -/
def State.owed (s : State) : List Response := s.responses ++ s.requests.map answerOf

/-- A number of steps one after another. -/
def serve : Nat → State → StepOutcome
  | 0, s => .next s
  | n + 1, s =>
    match step s with
    | .next t => serve n t
    | .fault f => .fault f
    | .refused r => .refused r

/-- One transaction as its host sees it: present, wait until the requests in line are served, read the
response, which is the newest. None where a step stopped. -/
def transact (r : Request) (s : State) : Option Response × State :=
  match serve (s.requests.length + 1) (present r s) with
  | .next t => (t.responses.getLast?, t)
  | .fault _ => (none, s)
  | .refused _ => (none, s)

/-- Hosts present requests one after another, before any of them is served. -/
def presentAll (requests : List Request) (s : State) : State := requests.foldl (fun t r => present r t) s

/-- The responses of a list of requests, each presented when the one before has been answered. -/
def session : List Request → State → List (Option Response)
  | [], _ => []
  | r :: rest, s => (transact r s).1 :: session rest (transact r s).2

end Sys2Proof.Machine
end

