-- ==== Sys2Proof/Safety.lean ====
section
/-! DEFINITION. What a safe run is: every step answers a next state, every buffer stays canonical and
in range, nothing of a walk outlives its transaction, and no request is lost but by reset. -/

namespace Sys2Proof.Machine

/-- The step neither stopped nor was refused. -/
abbrev Completes (o : StepOutcome) : Prop := ∃ t, o = .next t

/-- A buffer a host can present: in canonical form, of a length that fits `LENW` bits (10_state.md
R29). -/
abbrev Presentable (b : Buffer) : Prop := b.wf = true ∧ b.len < 2 ^ Config.lenw

/-- What holds between transactions: every buffer, on the input or waiting, is one a host can present,
and no walk variable exists (R25). -/
def State.Inv (s : State) : Prop :=
  Presentable s.buffer ∧ (∀ r ∈ s.requests, Presentable r.buffer) ∧ s.walk = none

/-- The invariant of a walk in progress for the request `(start, end)` (41_chunk_datapath.md R112,
R114): the cursor lies in the range, `k` chunks of eight bits are done, and `acc` is the field of
the bits after the cursor. -/
def WalkInv (start stopAt : Nat) (s : State) (w : Walk) : Prop :=
  s.walk = some w ∧ start ≤ w.cur ∧ w.cur ≤ stopAt ∧ stopAt - w.cur = 8 * w.k ∧
    w.acc.toNat = s.buffer.field (w.cur + 1) stopAt

/-- The accounts of the port: the responses taken, then those owed, are those of the requests asked for,
one for one and in order (70_reset_and_hazards.md R175; the order is log 2). -/
def Accounted (asked : List Request) (taken : List Response) (s : State) : Prop :=
  taken ++ s.owed = asked.map answerOf

/-- A state that presenting, stepping, collecting and resetting lead to from the state after reset,
with the requests presented and the responses taken since the last reset, in order. -/
inductive Reachable : List Request → List Response → State → Prop where
  | reset : Reachable [] [] State.reset
  | present (asked : List Request) (taken : List Response) (s : State) (r : Request) :
      Reachable asked taken s → Presentable r.buffer → Reachable (asked ++ [r]) taken (Machine.present r s)
  | step (asked : List Request) (taken : List Response) (s t : State) :
      Reachable asked taken s → Machine.step s = .next t → Reachable asked taken t
  | collect (asked : List Request) (taken : List Response) (s : State) :
      Reachable asked taken s →
        Reachable asked (taken ++ (collectResponse s).1.toList) (collectResponse s).2
  | resetBlock (asked : List Request) (taken : List Response) (s : State) :
      Reachable asked taken s → Reachable [] [] (Machine.resetBlock s)

end Sys2Proof.Machine
end

