-- ==== Sys2Proof/Certificates/Slice0/Obligations.lean ====
section
/-! DEFINITION. The statements for the provers. A docstring names the rule or the sentence of spec/
a statement formalises; "the spec's decision Dn" marks a clause that rests on a choice the spec
calls its own (92_eei_decisions.md), and "log n" one that is the model's. -/

open Sys2Proof Sys2Proof.Machine

/-! ### Reset and idleness -/

/-- Right after reset no request is in progress, no response is pending and no walk variable exists;
the state after reset meets the invariant of every step (the spec's decision D18; the empty buffer
is the model's choice, log 5). -/
def Obligations.ResetStateIsIdleAndInvariant : Prop :=
  State.reset.requests = [] ∧ State.reset.walk = none ∧ State.reset.responses = [] ∧
    State.reset.statusPort = none ∧ State.reset.Inv

/-- Reset, struck in any state, drops the requests in progress without a response, leaves no response
pending, does not touch the buffer, and leaves the block idle (the spec's decision D18). -/
def Obligations.ResetDropsTheTransactionAndSparesTheBuffer : Prop :=
  ∀ s : State,
    (resetBlock s).requests = [] ∧ (resetBlock s).walk = none ∧ (resetBlock s).responses = [] ∧
      (resetBlock s).buffer = s.buffer ∧ (∀ a, (resetBlock s).buffer.read a = s.buffer.read a) ∧
      step (resetBlock s) = .next (resetBlock s)

/-- The first request after reset is served exactly like any other (70_reset_and_hazards.md section
1, marked derived there). -/
def Obligations.FirstRequestAfterResetIsServedAlike : Prop :=
  ∀ (r : Request) (s : State), (transact r (resetBlock s)).1 = (transact r s).1

/-- No response is produced until a request is presented: an idle block stays as it is (10_state.md
section 4, the spec's decision D18; one step of an idle block is log 3). -/
def Obligations.IdleBlockStaysAsItIs : Prop :=
  ∀ s : State, s.requests = [] → step s = .next s

/-! ### Request words -/

/-- Request words written out from the format: `start` in bits 63:32, `end` in bits 31:0. The words
are those of 95_test_vectors.md (layout: the spec's decision D8). -/
def Obligations.RequestWordsOfTheSpecDecode : Prop :=
  decode 0x0000000700000026 = .extract 7 38 ∧ decode 0x0000000800000014 = .extract 8 20 ∧
    decode 0xFFFFFFFF00000000 = .extract 4294967295 0 ∧ decode 0x00000000FFFFFFFF = .extract 0 4294967295

/-- For every `POSW` of at least 1, decoding the word of an instruction whose operands fit gives it
back, and encoding what a word decodes to gives the word back; so at the reference instantiation
every request word stands for exactly one well-formed instruction and no word is turned away
(layout: the spec's decision D8). -/
def Obligations.DecodeAndEncodeAreInverse : Prop :=
  (∀ (posw : Nat) (i : Instr), 1 ≤ posw → i.fits posw = true →
    encodeAt posw i < 2 ^ (2 * posw) ∧ decodeAt posw (encodeAt posw i) = i) ∧
  (∀ posw w : Nat, 1 ≤ posw → w < 2 ^ (2 * posw) →
    (decodeAt posw w).fits posw = true ∧ encodeAt posw (decodeAt posw w) = w) ∧
  (∀ i : Instr, i.wellFormed = true → decode (encode i) = i) ∧
  (∀ w : ReqWord, (decode w).wellFormed = true ∧ encode (decode w) = w)

/-- The operands are the two halves of the word, unsigned and unscaled (30_encoding.md section 2;
layout: the spec's decision D8). -/
def Obligations.OperandsAreTheHalvesOfTheWord : Prop :=
  ∀ w : ReqWord, decode w = .extract (w.extractLsb' 32 32).toNat (w.extractLsb' 0 32).toNat

/-- The decoder on table words: it takes every value of up to 64 bits that fits its width, and turns
away by name what is wider or does not fit (log 12). -/
def Obligations.TableWordsDecodeOrAreRefusedByName : Prop :=
  ∀ nbits w : Nat,
    (nbits ≤ 64 → w < 2 ^ nbits → decodeBits nbits w = .ok (decode (BitVec.ofNat 64 w))) ∧
    (nbits ≤ 64 → 2 ^ nbits ≤ w → decodeBits nbits w = .error .valueOutsideWidth) ∧
    (64 < nbits → decodeBits nbits w = .error .widerThanRequest)

/-- A step with requests waiting is the meaning of the first one decoded, run with that request taken
and its buffer on the buffer input; and what `withFetchWord` places is run by the very next step (log
2, 3). -/
def Obligations.StepRunsTheDecodedRequest : Prop :=
  (∀ (s : State) (r : Request) (rest : List Request), s.requests = r :: rest →
    step s = exec (decode r.word) { s with requests := rest, buffer := r.buffer }) ∧
  (∀ (s : State) (i : Instr) (r : Request) (rest : List Request), i.wellFormed = true →
    s.requests = r :: rest → r.word = encode i →
    step s = exec i { s with requests := rest, buffer := r.buffer }) ∧
  (∀ (s : State) (nbits w : Nat) (i : Instr), decodeTableWord nbits w = some i →
    step (s.withFetchWord nbits w) = exec i s)

/-! ### The checks -/

/-- The first check: `start > end` fails with `InvalidRange`; one bit, `start = end`, is the smallest
valid range and is answered by a value of one bit (40_extract.md R81). -/
def Obligations.FirstCheckRaisesInvalidRange : Prop :=
  (∀ (start stopAt : Nat) (s : State), start > stopAt →
    ∃ t, exec (.extract start stopAt) s = .next t ∧ t.responses = s.responses ++ [.err .invalidRange]) ∧
  (∀ (p : Nat) (s : State), p < 8 * s.buffer.len →
    ∃ t v, exec (.extract p p) s = .next t ∧ t.responses = s.responses ++ [.ok v] ∧ v.toNat < 2) ∧
  (∀ (start stopAt : Nat) (s t : State) (v : Word), exec (.extract start stopAt) s = .next t →
    t.responses = s.responses ++ [.ok v] → start ≤ stopAt)

/-- The second check, made when the first passes: more than 32 bits fails with `WidthExceeded`, and
33 bits already do (40_extract.md section 2; the limit is the spec's decision D7). -/
def Obligations.SecondCheckRaisesWidthExceeded : Prop :=
  ∀ (start stopAt : Nat) (s : State), start ≤ stopAt → stopAt - start ≥ 32 →
    ∃ t, exec (.extract start stopAt) s = .next t ∧ t.responses = s.responses ++ [.err .widthExceeded]

/-- The third check, made when the first two pass: either position at or beyond `8 x len` fails with
`OutOfBounds`; the last bit of the buffer is still valid; on an empty buffer every request that
reaches this check fails it (40_extract.md section 2; testing `start` as well is marked derived there). -/
def Obligations.ThirdCheckRaisesOutOfBounds : Prop :=
  (∀ (start stopAt : Nat) (s : State), start ≤ stopAt → stopAt - start ≤ 31 →
    (start ≥ 8 * s.buffer.len ∨ stopAt ≥ 8 * s.buffer.len) →
    ∃ t, exec (.extract start stopAt) s = .next t ∧ t.responses = s.responses ++ [.err .outOfBounds]) ∧
  (∀ s : State, 0 < s.buffer.len →
    ∃ t v, exec (.extract (8 * s.buffer.len - 1) (8 * s.buffer.len - 1)) s = .next t ∧ t.responses = s.responses ++ [.ok v]) ∧
  (∀ (start stopAt : Nat) (s : State), s.buffer.len = 0 → start ≤ stopAt → stopAt - start ≤ 31 →
    ∃ t, exec (.extract start stopAt) s = .next t ∧ t.responses = s.responses ++ [.err .outOfBounds])

/-- The error reported is the first whose cause holds, in the order `InvalidRange`, `WidthExceeded`,
`OutOfBounds`, and no other (60_exceptions.md section 2; the priority is the spec's decision D12). -/
def Obligations.FirstCauseInOrderIsReported : Prop :=
  ∀ (start stopAt : Nat) (s t : State), exec (.extract start stopAt) s = .next t →
    (t.responses = s.responses ++ [.err .invalidRange] ↔ start > stopAt) ∧
    (t.responses = s.responses ++ [.err .widthExceeded] ↔ start ≤ stopAt ∧ stopAt - start + 1 > 32) ∧
    (t.responses = s.responses ++ [.err .outOfBounds] ↔
      start ≤ stopAt ∧ stopAt - start + 1 ≤ 32 ∧ stopAt ≥ 8 * s.buffer.len)

/-- The operation is total: in every state every instruction answers a next state with a response,
which is a value exactly when the request is valid; no step stops or is refused, so no byte outside
the buffer is ever read (40_extract.md section 2, the spec's decision D12; the fault is log 9). -/
def Obligations.EveryRequestIsAnswered : Prop :=
  (∀ (start stopAt : Nat) (s : State), ∃ t r, exec (.extract start stopAt) s = .next t ∧ t.responses = s.responses ++ [r] ∧
    ((∃ v, r = .ok v) ↔ Valid start stopAt s.buffer.len)) ∧
  (∀ s : State, Completes (step s))

/-- No error depends on the buffer's contents, only on `start`, `end` and `len`, and a request that
raises one reads no byte: its next state is the same function of the state for every content of the
buffer. No error is raised once a walk has started: however many chunk steps run, they give no
response or one value (60_exceptions.md R135). -/
def Obligations.ErrorsComeBeforeAnyByteIsRead : Prop :=
  (∀ start stopAt len : Nat, ¬ Valid start stopAt len → ∃ kind, ∀ s : State, s.buffer.len = len →
    exec (.extract start stopAt) s = .next (raise kind s)) ∧
  (∀ (start n : Nat) (s t : State), runWalk start n s = .next t →
    t.responses = s.responses ∨ ∃ v, t.responses = s.responses ++ [.ok v])

/-- A failing request delivers no value and changes nothing: its one response is the error, the buffer
and the requests that wait stay, no part of a walk exists, and no byte has been read, so any buffer
of that length gives the same response (60_exceptions.md R139). -/
def Obligations.FailingRequestDeliversAndChangesNothing : Prop :=
  ∀ (start stopAt : Nat) (s : State), ¬ Valid start stopAt s.buffer.len →
    ∃ t kind, exec (.extract start stopAt) s = .next t ∧ t.responses = s.responses ++ [.err kind] ∧
      t.walk = none ∧ t.buffer = s.buffer ∧ t.requests = s.requests ∧
      (∀ a, t.buffer.read a = s.buffer.read a) ∧
      ∀ s' : State, s'.buffer.len = s.buffer.len →
        ∃ t', exec (.extract start stopAt) s' = .next t' ∧ t'.responses = s'.responses ++ [.err kind]

/-- On a buffer of length 0 no request is valid: each raises `OutOfBounds` or an earlier error
(60_exceptions.md section 1; the spec's decision D14). -/
def Obligations.EmptyBufferOnlyGivesErrors : Prop :=
  ∀ (start stopAt : Nat) (s : State), s.buffer.len = 0 →
    ∃ t, exec (.extract start stopAt) s = .next t ∧
      t.responses = s.responses ++ [.err (if start > stopAt then .invalidRange
        else if stopAt - start ≥ 32 then .widthExceeded else .outOfBounds)]

/-- In hardware the byte index and the in-byte position are bit slices of the position (30_encoding.md
section 2, marked derived there). -/
def Obligations.PositionFieldsAreBitSlices : Prop :=
  ∀ posw p : Nat, 4 ≤ posw → p < 2 ^ posw →
    byteIndex p = slice p (posw - 1) 3 ∧ inByte p = slice p 2 0

/-- The checks in fixed-width wires, made in the order that avoids wrap-around, answer as the checks on
naturals do, on every input of the reference widths (30_encoding.md section 2 and
70_reset_and_hazards.md section 3; the spec's decision D15; the widths are log 1). -/
def Obligations.FixedWidthChecksDoNotWrap : Prop :=
  ∀ (start stopAt : BitVec Config.posw) (len : BitVec Config.lenw),
    checkWires start stopAt len = check start.toNat stopAt.toNat len.toNat

/-! ### The outputs -/

/-- The status codes 0 to 3, and the packed word: `RSP[33:32]` is the status code, `RSP[31:0]` the
value when the status is 0; nothing is said of the value bits of an error (30_encoding.md section 1;
the spec's decisions D9, D11, D13). The outputs show the oldest response pending, and collecting
hands over that one and leaves the rest (the model's choice, log 2). -/
def Obligations.ResponseWordHoldsStatusAndValue : Prop :=
  (∀ v, statusCode (.ok v) = 0) ∧ statusCode (.err .invalidRange) = 1 ∧
    statusCode (.err .widthExceeded) = 2 ∧ statusCode (.err .outOfBounds) = 3 ∧
  (∀ (s : State) (r : Response) (rest : List Response), s.responses = r :: rest →
    (∃ rsp : BitVec 34, s.rspPort = some rsp ∧ rsp.extractLsb' 32 2 = statusCode r ∧
      s.statusPort = some (statusCode r) ∧
      ∀ v, r = .ok v → rsp.extractLsb' 0 32 = v ∧ s.valuePort = v) ∧
    (collectResponse s).1 = some r ∧ (collectResponse s).2.responses = rest) ∧
  (∀ s : State, s.responses = [] →
    s.rspPort = none ∧ s.statusPort = none ∧ (collectResponse s).1 = none ∧
      (collectResponse s).2.responses = [])

/-- What a host reads as `RSP` after a step that serves its request, no earlier response being pending:
the status code of the response to the request, and the field of the range when it is `OK`
(40_extract.md section 1, 30_encoding.md section 1; the spec's decisions D8, D9, D11). While an
earlier response is pending, a step does not disturb what it shows (the model's choice, log 2). -/
def Obligations.StepDrivesTheResponseWord : Prop :=
  (∀ (s : State) (q : Request) (rest : List Request), s.requests = q :: rest → s.responses = [] →
    ∃ t rsp, step s = .next t ∧ t.rspPort = some rsp ∧ rsp.extractLsb' 32 2 = statusCode (answerOf q) ∧
      (rsp.extractLsb' 32 2 = 0 → (rsp.extractLsb' 0 32).toNat =
        q.buffer.field (q.word.extractLsb' 32 32).toNat (q.word.extractLsb' 0 32).toNat)) ∧
  (∀ (s : State) (r : Response) (rest : List Response), s.responses = r :: rest →
    ∃ t, step s = .next t ∧ t.statusPort = s.statusPort ∧ ∀ v, r = .ok v → t.rspPort = s.rspPort)

/-! ### The buffer -/

/-- Bit `p` lies in byte `p / 8` at bit `7 - p % 8`; position 0 is the most significant bit of byte
0, position 7 its least, position 8 the most significant of byte 1 (20_memory.md R43). -/
def Obligations.BitNumberingIsMostSignificantFirst : Prop :=
  (∀ (b : Buffer) (p : Nat), p < 8 * b.len → b.bit p = ((b.byteAt (p / 8)).getLsbD (7 - p % 8)).toNat) ∧
  (∀ b : Buffer, b.bit 0 = (b.byteAt 0).toNat / 128 ∧ b.bit 7 = (b.byteAt 0).toNat % 2 ∧
    b.bit 8 = (b.byteAt 1).toNat / 128) ∧
  (∀ b : Buffer, b.byteAt 1 = 0xE0 → b.bit 8 = 1 ∧ b.bit 11 = 0)

/-- The field of a range is the sum of its bits, the bit at `e` worth 1, is below `2^(e - s + 1)`, and
over whole bytes is their big-endian concatenation (20_memory.md section 2, the last marked derived
there). -/
def Obligations.FieldIsBigEndian : Prop :=
  (∀ (b : Buffer) (s e : Nat), s ≤ e → e < 8 * b.len →
    b.field s e = ((List.range' s (e + 1 - s)).map fun p => b.bit p <<< (e - p)).sum ∧
      b.field s e < 2 ^ (e - s + 1)) ∧
  (∀ (b : Buffer) (j n : Nat), 1 ≤ n → 8 * j + 8 * n - 1 < 8 * b.len →
    b.field (8 * j) (8 * j + 8 * n - 1) =
      ((List.range' j n).map b.byteAt).foldl (fun a byte => cat a byte.toNat 8) 0)

/-- The model's buffers hold every byte sequence exactly: what is laid out is read back, the length
is the number of bytes, the canonical form holds, and two canonical buffers of equal bytes are equal
(20_memory.md sections 1 and 4; the representation is the model's, log 4). -/
def Obligations.BuffersHoldEveryByteSequence : Prop :=
  (∀ (bytes : List Byte) (i : Nat), (Buffer.ofBytes bytes).read i = bytes[i]?) ∧
  (∀ bytes : List Byte, (Buffer.ofBytes bytes).wf = true ∧ (Buffer.ofBytes bytes).toBytes = bytes) ∧
  (∀ b : Buffer, b.wf = true → Buffer.ofBytes b.toBytes = b)

/-- Splitting a range at `m`: the two parts side by side, with no bit in common (40_extract.md
section 4, marked derived there). -/
def Obligations.FieldSplitsAtAnyPosition : Prop :=
  ∀ (b : Buffer) (start m stopAt : Nat), start ≤ m → m < stopAt →
    b.field start stopAt = cat (b.field start m) (b.field (m + 1) stopAt) (stopAt - m) ∧
    b.field start stopAt = (b.field start m <<< (stopAt - m)) + b.field (m + 1) stopAt ∧
    (b.field start m <<< (stopAt - m)) &&& b.field (m + 1) stopAt = 0

/-! ### The result -/

/-- The result of a valid request, and that it is answered: the value is the field of the range, bit
`j` of it is the buffer bit at `end - j`, and the bits from the width up are 0, so it is below `2^w`.
A request, valid or not, changes nothing anywhere, neither the buffer nor a request that waits nor a
response given before nor the outcome of any other request (40_extract.md R85, R87, R95). -/
def Obligations.ExtractReturnsTheBitsOfTheRange : Prop :=
  (∀ (start stopAt : Nat) (s : State), Valid start stopAt s.buffer.len →
    ∃ v : Word,
      exec (.extract start stopAt) s = .next { s with walk := none, responses := s.responses ++ [.ok v] } ∧
      v.toNat = s.buffer.field start stopAt ∧
      (∀ j, j < stopAt - start + 1 → (v.getLsbD j).toNat = s.buffer.bit (stopAt - j)) ∧
      (∀ j, stopAt - start + 1 ≤ j → j < 32 → v.getLsbD j = false) ∧
      v.toNat < 2 ^ (stopAt - start + 1)) ∧
  (∀ (start stopAt : Nat) (s : State), ∃ t r, exec (.extract start stopAt) s = .next t ∧
    t.buffer = s.buffer ∧ (∀ a, t.buffer.read a = s.buffer.read a) ∧ t.requests = s.requests ∧
    t.walk = none ∧ t.responses = s.responses ++ [r] ∧
    ∀ other : Request, (transact other t).1 = (transact other s).1)

/-- EXTRACT by its pseudocode, on every request in every state: the three checks in order, then the
field; with its worked example (40_extract.md section 1; the order of the checks is the spec's
decision D12). -/
def Obligations.ExtractFollowsItsPseudocode : Prop :=
  (∀ (start stopAt : Nat) (s : State),
    ∃ t, exec (.extract start stopAt) s = .next t ∧
      t.responses = s.responses ++ [if start > stopAt then .err .invalidRange
        else if stopAt - start + 1 > 32 then .err .widthExceeded
        else if stopAt ≥ 8 * s.buffer.len then .err .outOfBounds
        else .ok (BitVec.ofNat 32 (s.buffer.field start stopAt))] ∧
      t.buffer = s.buffer ∧ t.requests = s.requests ∧ t.walk = none) ∧
  (∀ s : State, s.buffer = Buffer.ofBytes [0x94, 0xE0, 0xF5, 0xA8, 0x03] →
    ∃ t, exec (.extract 8 8) s = .next t ∧ t.responses = s.responses ++ [.ok 1])

/-- Single-bit extraction returns the physical bit at the position (40_extract.md R91). -/
def Obligations.SingleBitExtraction : Prop :=
  ∀ (p : Nat) (s : State), p < 8 * s.buffer.len →
    ∃ t, exec (.extract p p) s = .next t ∧ t.responses = s.responses ++ [.ok (BitVec.ofNat 32 (s.buffer.bit p))]

/-- Whole-byte extraction returns the unsigned value of the byte, and 1 to 4 whole bytes come out in
big-endian order (40_extract.md section 4, the second marked derived there). -/
def Obligations.WholeByteExtraction : Prop :=
  (∀ (k : Nat) (s : State), k < s.buffer.len →
    ∃ t, exec (.extract (8 * k) (8 * k + 7)) s = .next t ∧
      t.responses = s.responses ++ [.ok ((s.buffer.byteAt k).setWidth 32)]) ∧
  (∀ (j n : Nat) (s : State), 1 ≤ n → n ≤ 4 → j + n ≤ s.buffer.len →
    ∃ t v, exec (.extract (8 * j) (8 * j + 8 * n - 1)) s = .next t ∧ t.responses = s.responses ++ [.ok v] ∧
      v.toNat = ((List.range' j n).map s.buffer.byteAt).foldl (fun a byte => cat a byte.toNat 8) 0)

/-- A full 32-bit result whose first bit is 1 has bit 31 set and is a value from `2^31` up: the
result is unsigned and nothing overflows (40_extract.md section 3). -/
def Obligations.FullWidthResultIsUnsigned : Prop :=
  ∀ (start : Nat) (s : State), start + 31 < 8 * s.buffer.len → s.buffer.bit start = 1 →
    ∃ t v, exec (.extract start (start + 31)) s = .next t ∧ t.responses = s.responses ++ [.ok v] ∧
      v.getLsbD 31 = true ∧ 2 ^ 31 ≤ v.toNat

/-- The response depends only on the bits of the range: two buffers that agree on them give the same
response to a valid request, whatever their other bits and whatever their lengths beyond the range
(40_extract.md section 4, marked derived there). -/
def Obligations.ResponseDependsOnlyOnTheBitsOfTheRange : Prop :=
  ∀ (start stopAt : Nat) (s s' : State), Valid start stopAt s.buffer.len → Valid start stopAt s'.buffer.len →
    (∀ p, start ≤ p → p ≤ stopAt → s.buffer.bit p = s'.buffer.bit p) →
    ∃ t t' r, exec (.extract start stopAt) s = .next t ∧ exec (.extract start stopAt) s' = .next t' ∧
      t.responses = s.responses ++ [r] ∧ t'.responses = s'.responses ++ [r]

/-- The response to any request, valid or not, depends only on `start`, `end`, `len` and the bytes at
the indices `start / 8` to `end / 8`, of which a valid request has at most 5 (20_memory.md sections 4
and 6, the spec's decision D3; 41_chunk_datapath.md section 3). -/
def Obligations.ResponseDependsOnlyOnTheBytesOfTheRange : Prop :=
  ∀ (start stopAt : Nat) (s s' : State), s.buffer.len = s'.buffer.len →
    (∀ i, start / 8 ≤ i → i ≤ stopAt / 8 → s.buffer.read i = s'.buffer.read i) →
    (Valid start stopAt s.buffer.len → stopAt / 8 - start / 8 + 1 ≤ 5) ∧
    ∃ t t' r, exec (.extract start stopAt) s = .next t ∧ exec (.extract start stopAt) s' = .next t' ∧
      t.responses = s.responses ++ [r] ∧ t'.responses = s'.responses ++ [r]

/-- The frame of EXTRACT and of a step: EXTRACT answers a next state that leaves the buffer exactly as
it was, every byte of it reading as before, leaves the requests that wait, and lets no walk variable
outlive the transaction (20_memory.md section 1). A step changes no byte of the buffer its request
was presented with, takes that request alone out of the line, and without a request changes nothing
(the line of requests is the model's choice, log 2). -/
def Obligations.BufferIsReadOnly : Prop :=
  (∀ (start stopAt : Nat) (s : State), ∃ t, exec (.extract start stopAt) s = .next t ∧
    t.buffer = s.buffer ∧ (∀ a, t.buffer.read a = s.buffer.read a) ∧ t.requests = s.requests ∧ t.walk = none) ∧
  (∀ (s : State) (r : Request) (rest : List Request), s.requests = r :: rest →
    ∃ t, step s = .next t ∧ t.buffer = r.buffer ∧ (∀ a, t.buffer.read a = r.buffer.read a) ∧
      t.requests = rest ∧ t.walk = none) ∧
  (∀ s t : State, s.requests = [] → step s = .next t → t = s)

/-! ### The chunk walk -/

/-- The start of the walk of a valid request: `cur` is `end`, `k` and `acc` are 0, nothing else is
written, and the request is served by the walk from there (41_chunk_datapath.md R105). -/
def Obligations.WalkStartsAtEnd : Prop :=
  (∀ (stopAt : Nat) (s : State), (beginWalk stopAt s).walk = some { cur := stopAt, k := 0, acc := 0 } ∧
    (beginWalk stopAt s).buffer = s.buffer ∧ (beginWalk stopAt s).requests = s.requests ∧
    (beginWalk stopAt s).responses = s.responses) ∧
  (∀ (start stopAt : Nat) (s : State), Valid start stopAt s.buffer.len →
    exec (.extract start stopAt) s = runWalk start Config.maxSteps (beginWalk stopAt s)) ∧
  (∀ s : State, (beginWalk 29 s).walk = some { cur := 29, k := 0, acc := 0 })

/-- The byte-boundary test: same byte exactly when the cursor's byte holds `start`, and then the bits
left are at most `vbs`, at most 8; otherwise the cursor's byte is a later one, a byte before it
exists, and more than `vbs` bits are left (41_chunk_datapath.md R108). -/
def Obligations.ByteBoundaryTest : Prop :=
  (∀ start cur : Nat, start ≤ cur →
    (sameByte start cur = true ↔ cur / 8 = start / 8) ∧
    (sameByte start cur = false ↔ cur / 8 > start / 8) ∧
    (sameByte start cur = true → spanWidth start cur ≤ validBits cur ∧ validBits cur ≤ 8) ∧
    (sameByte start cur = false → 1 ≤ cur / 8 ∧ spanWidth start cur > validBits cur)) ∧
  sameByte 3 29 = false ∧ sameByte 3 5 = true

/-- `low` is the `vbs` most significant bits of the cursor's byte, the buffer bits from the start of
that byte to the cursor, and fits `vbs` bits (41_chunk_datapath.md section 2; the second equation is
marked derived there). -/
def Obligations.LowPartIsTheFieldUpToTheCursor : Prop :=
  ∀ (b : Buffer) (cur : Nat), cur < 8 * b.len →
    (lowPart (b.byteAt (cur / 8)) (validBits cur)).toNat =
      slice (b.byteAt (cur / 8)).toNat 7 (8 - validBits cur) ∧
    (lowPart (b.byteAt (cur / 8)) (validBits cur)).toNat = b.field (8 * (cur / 8)) cur ∧
    (lowPart (b.byteAt (cur / 8)) (validBits cur)).toNat < 2 ^ validBits cur

/-- A same-byte step ends the walk: its chunk is the cursor's byte shifted right by `7 - bx` and cut to
the bits left, the field from `start` to the cursor; it is added at byte `k` of the result, and the
response is `Ok` of the sum (41_chunk_datapath.md R109). -/
def Obligations.SameByteStepEndsTheWalk : Prop :=
  ∀ (start : Nat) (s : State) (w : Walk), s.walk = some w → start ≤ w.cur → w.cur < 8 * s.buffer.len →
    w.cur / 8 = start / 8 →
    ∃ chunk : Byte,
      walkStep start s =
        .next { s with walk := none, responses := s.responses ++ [.ok (w.acc + (chunk.setWidth 32 <<< (8 * w.k)))] } ∧
      chunk.toNat = ((s.buffer.byteAt (w.cur / 8)).toNat >>> (7 - w.cur % 8)) &&& mask (w.cur - start + 1) ∧
      chunk.toNat = s.buffer.field start w.cur ∧ chunk.toNat < 2 ^ (w.cur - start + 1)

/-- The chunk of a cross-byte step: `high` is the rest of the byte before, placed above `low`; the chunk
is the eight buffer bits that end at the cursor, equally the 16-bit pair shifted right by `7 - bx`
(41_chunk_datapath.md section 2; the field is marked derived there). -/
def Obligations.CrossByteChunkIsEightBufferBits : Prop :=
  ∀ (b : Buffer) (start cur : Nat), cur < 8 * b.len → cur / 8 > start / 8 →
    ∃ low high chunk : Byte,
      low = lowPart (b.byteAt (cur / 8)) (cur % 8 + 1) ∧ high = highPart (b.byteAt (cur / 8 - 1)) (cur % 8 + 1) ∧
      high.toNat = ((b.byteAt (cur / 8 - 1)).toNat &&& mask (8 - (cur % 8 + 1))) <<< (cur % 8 + 1) ∧
      high.toNat % 2 ^ (cur % 8 + 1) = 0 ∧
      chunk = low + high ∧ chunk.toNat = low.toNat + high.toNat ∧ chunk.toNat = b.field (cur - 7) cur ∧
      chunk.toNat = (cat (b.byteAt (cur / 8 - 1)).toNat (b.byteAt (cur / 8)).toNat 8 >>> (7 - cur % 8)) &&& 0xFF ∧
      (cur % 8 = 7 → high = 0 ∧ chunk = b.byteAt (cur / 8))

/-- After a cross-byte step with more than 8 bits left the cursor has moved 8 toward `start` and is
still in the range, `k` has grown by 1, and the bits left are 8 fewer and at least 1; the chunk has
been added at byte `k` of the result and nothing else has changed (41_chunk_datapath.md R113). -/
def Obligations.CrossByteStepMovesTheCursorByEight : Prop :=
  ∀ (start : Nat) (s : State) (w : Walk), s.walk = some w → w.cur < 8 * s.buffer.len →
    w.cur / 8 > start / 8 → spanWidth start w.cur > 8 →
    (∃ next : Walk, walkStep start s = .next { s with walk := some next } ∧
      next.cur = w.cur - 8 ∧ next.k = w.k + 1 ∧
      next.acc = w.acc + ((lowPart (s.buffer.byteAt (w.cur / 8)) (w.cur % 8 + 1) +
        highPart (s.buffer.byteAt (w.cur / 8 - 1)) (w.cur % 8 + 1)).setWidth 32 <<< (8 * w.k))) ∧
    8 ≤ w.cur ∧ start ≤ w.cur - 8 ∧ spanWidth start (w.cur - 8) = spanWidth start w.cur - 8 ∧
    1 ≤ spanWidth start (w.cur - 8)

/-- A cross-byte step with at most 8 bits left ends the walk: the chunk is cut to the bits left and is
the field from `start` to the cursor (41_chunk_datapath.md section 2; this step is the spec's decision
D6). -/
def Obligations.CrossByteFinalStepEndsTheWalk : Prop :=
  ∀ (start : Nat) (s : State) (w : Walk), s.walk = some w → start ≤ w.cur → w.cur < 8 * s.buffer.len →
    w.cur / 8 > start / 8 → w.cur - start + 1 ≤ 8 →
    ∃ chunk : Byte,
      walkStep start s =
        .next { s with walk := none, responses := s.responses ++ [.ok (w.acc + (chunk.setWidth 32 <<< (8 * w.k)))] } ∧
      chunk = (lowPart (s.buffer.byteAt (w.cur / 8)) (w.cur % 8 + 1) +
        highPart (s.buffer.byteAt (w.cur / 8 - 1)) (w.cur % 8 + 1)) &&& mask8 (w.cur - start + 1) ∧
      chunk.toNat = s.buffer.field start w.cur

/-- What a chunk step reads: it goes on exactly when the cursor's byte, and in a cross-byte step the byte
before, lie in the buffer; what it does depends on no other byte. Over the walk of a valid request
the bytes read are exactly those at the indices `start / 8` to `end / 8`: 1 to 5 bytes, all in the
buffer, 5 only when `start % 8 + w > 32` (41_chunk_datapath.md section 3, marked derived there; the
spec's decision D3; the fault is log 9). -/
def Obligations.WalkReadsExactlyTheBytesOfTheRange : Prop :=
  (∀ (start : Nat) (s : State) (w : Walk), s.walk = some w →
    (Completes (walkStep start s) ↔ ∀ i ∈ stepReads start w.cur, i < s.buffer.len) ∧
    (walkStep start s = .fault .bufferIndexOutside ↔ ∃ i ∈ stepReads start w.cur, s.buffer.len ≤ i)) ∧
  (∀ (start : Nat) (s s' t t' : State) (w : Walk), s.walk = some w → s'.walk = some w →
    s'.responses = s.responses → (∀ i ∈ stepReads start w.cur, s'.buffer.read i = s.buffer.read i) →
    walkStep start s = .next t → walkStep start s' = .next t' → t'.responses = t.responses ∧ t'.walk = t.walk) ∧
  (∀ start stopAt len : Nat, Valid start stopAt len →
    (∀ i, i ∈ walkReads start stopAt ↔ start / 8 ≤ i ∧ i ≤ stopAt / 8) ∧
    (∀ i ∈ walkReads start stopAt, i < len) ∧
    1 ≤ stopAt / 8 - start / 8 + 1 ∧ stopAt / 8 - start / 8 + 1 ≤ 5 ∧
    (stopAt / 8 - start / 8 + 1 = 5 → start % 8 + (stopAt - start + 1) > 32 ∧ stopAt - start + 1 ≥ 26))

/-- The additions of the walk never carry: they are bitwise OR (41_chunk_datapath.md section 1, marked
derived there). -/
def Obligations.WalkAdditionsNeverCarry : Prop :=
  (∀ (here before : Byte) (vbs : Nat), vbs ≤ 8 →
    lowPart here vbs + highPart before vbs = lowPart here vbs ||| highPart before vbs ∧
    (lowPart here vbs + highPart before vbs).toNat = (lowPart here vbs).toNat + (highPart before vbs).toNat) ∧
  (∀ (w : Walk) (chunk : Byte), w.k ≤ 3 → w.acc.toNat < 2 ^ (8 * w.k) →
    accumulate w chunk = w.acc ||| (chunk.setWidth 32 <<< (8 * w.k)) ∧
    (accumulate w chunk).toNat = w.acc.toNat + chunk.toNat * 2 ^ (8 * w.k))

/-- Every chunk step of a valid request keeps the invariant of the walk or ends it with the field of
the range, never stops, leaves the buffer, and lowers the bits left by 8 when it goes on
(41_chunk_datapath.md section 2, the invariant is marked derived there; the final cross-byte step is
the spec's decision D6). -/
def Obligations.ChunkStepKeepsTheWalkInvariant : Prop :=
  ∀ (start stopAt : Nat) (s : State) (w : Walk), Valid start stopAt s.buffer.len → WalkInv start stopAt s w →
    ∃ t, walkStep start s = .next t ∧ t.buffer = s.buffer ∧ t.requests = s.requests ∧
      ((∃ w', WalkInv start stopAt t w' ∧ w'.cur + 8 = w.cur ∧ w'.cur % 8 = stopAt % 8 ∧ t.responses = s.responses) ∨
        (t.walk = none ∧ t.responses = s.responses ++ [.ok (BitVec.ofNat 32 (s.buffer.field start stopAt))]))

/-- The walk of a valid request takes exactly `ceil(w / 8)` steps, from 1 to 4. After `j` of them, fewer
than that, the cursor is `end - 8j`, `k` is `j` and `acc` is the field of the bits after the cursor;
after the last, and however many stages follow, the response is `Ok` of the field of the range
(41_chunk_datapath.md section 3, marked derived there; the spec's decision D6). -/
def Obligations.WalkTakesOneStepForEachByteOfTheResult : Prop :=
  ∀ (start stopAt : Nat) (s : State), Valid start stopAt s.buffer.len →
    1 ≤ (stopAt - start + 1 + 7) / 8 ∧ (stopAt - start + 1 + 7) / 8 ≤ 4 ∧
    (∀ j, j < (stopAt - start + 1 + 7) / 8 →
      ∃ w : Walk, runWalk start j (beginWalk stopAt s) = .next { s with walk := some w } ∧
        w.cur = stopAt - 8 * j ∧ w.k = j ∧
        w.acc.toNat = s.buffer.field (stopAt - 8 * j + 1) stopAt) ∧
    (∀ j, (stopAt - start + 1 + 7) / 8 ≤ j →
      runWalk start j (beginWalk stopAt s) = .next { s with
        walk := none, responses := s.responses ++ [.ok (BitVec.ofNat 32 (s.buffer.field start stopAt))] })

/-- Chunk `i` is byte `i` of the result, counting from the least significant: the field of at most
eight bits that end at `end - 8i` (41_chunk_datapath.md section 3, marked derived there). -/
def Obligations.ChunkIsAByteOfTheResult : Prop :=
  ∀ (b : Buffer) (start stopAt i : Nat), Valid start stopAt b.len → 8 * i < stopAt - start + 1 →
    slice (b.field start stopAt) (8 * i + 7) (8 * i) =
      b.field (max start (stopAt - 8 * i - 7)) (stopAt - 8 * i) ∧
    (stageChunk b start stopAt i).toNat = slice (b.field start stopAt) (8 * i + 7) (8 * i)

/-! ### The other forms -/

/-- The per-bit form is the field, and after the bit at `p` has been shifted in it is the field up to
`p` (40_extract.md section 3, marked derived there). -/
def Obligations.OracleIsTheField : Prop :=
  ∀ (b : Buffer) (start p : Nat), start ≤ p →
    oracle b start p = b.field start p ∧ oracle b start p < 2 ^ (p - start + 1) ∧
    oracle b start (p + 1) = (oracle b start p <<< 1) ||| b.bit (p + 1)

/-- The window form, one barrel shift and one mask, is the field (40_extract.md section 3, marked
derived there). -/
def Obligations.WindowFormIsTheField : Prop :=
  ∀ (b : Buffer) (start stopAt : Nat), Valid start stopAt b.len →
    windowForm b start stopAt = b.field start stopAt

/-- The unrolled form, four stages side by side, is the field (41_chunk_datapath.md section 3, marked
derived there). -/
def Obligations.UnrolledFormIsTheField : Prop :=
  ∀ (b : Buffer) (start stopAt : Nat), Valid start stopAt b.len →
    (unrolledForm b start stopAt).toNat = b.field start stopAt

/-- The source's walk as literally worded: with `r` the bits left for the last step, it has no meaning
exactly when `r < 8` and those bits lie in two bytes; elsewhere it gives the field, in one step more
than the walk of the spec when `r = 8` and `start` is inside a byte (41_chunk_datapath.md section 3,
marked derived there; the spec's decision D21). -/
def Obligations.LiteralWalkAgreesWhereItHasAMeaning : Prop :=
  ∀ (b : Buffer) (start stopAt r : Nat), Valid start stopAt b.len → r = (stopAt - start) % 8 + 1 →
    literalWalk b start 5 stopAt 0 0 =
      if r < 8 ∧ start % 8 + r > 8 then none
      else some (b.field start stopAt,
        (stopAt - start + 1 + 7) / 8 + if r = 8 ∧ start % 8 ≠ 0 then 1 else 0)

/-! ### The block among its hosts -/

/-- Idempotence: the same request gives the same response, whatever the state it is presented in and
whatever other request was served between (40_extract.md R93). -/
def Obligations.RepeatedRequestGivesTheSameResponse : Prop :=
  ∀ (r other : Request) (s s' : State),
    (transact r s).1 = (transact r s').1 ∧
    (transact r (transact r s).2).1 = (transact r s).1 ∧
    (transact r (transact other (transact r s).2).2).1 = (transact r s).1 ∧ ∃ a, (transact r s).1 = some a

/-- After an error the next request is served as if the failed one had never been made, and the same
failing request gets the same error again (60_exceptions.md R141). -/
def Obligations.ErrorLeavesNoTrace : Prop :=
  ∀ (failing r : Request) (s : State) (kind : ErrKind), (transact failing s).1 = some (.err kind) →
    (transact r (transact failing s).2).1 = (transact r s).1 ∧
    (transact failing (transact failing s).2).1 = some (.err kind)

/-- Any number of hosts in any interleaving: in every session, from every state, each transaction's
response is the function of its own request, whatever the others are (60_exceptions.md R144). -/
def Obligations.SessionAnswersEachRequestAlone : Prop :=
  ∀ (requests : List Request) (s : State), session requests s = requests.map fun r => some (answerOf r)

/-- Every step keeps the invariant: canonical buffers whose lengths fit their input, on the input and in
every request that waits, and no walk variable between transactions (10_state.md sections 2 and 3;
the canonical form is the model's, log 4). -/
def Obligations.StepKeepsTheInvariant : Prop :=
  ∀ s t : State, s.Inv → step s = .next t → t.Inv

/-- Every state that presenting, serving, collecting and resetting lead to from reset meets the
invariant, and the block completes a step in it (10_state.md sections 2 and 3, the spec's decision
D18; log 2, 4, 5). -/
def Obligations.ReachableStatesAreInvariantAndLive : Prop :=
  ∀ (asked : List Request) (taken : List Response) (s : State), Reachable asked taken s →
    s.Inv ∧ Completes (step s)

/-- The accounts of the port are an invariant: if the responses taken and those still owed are exactly
one for each request presented, in order, they are so after every step, after every request
presented and after every collection: none of these loses a request, answers one twice or withdraws
one (70_reset_and_hazards.md section 4, the spec's decision D19; that the order is that of
presenting is the model's choice, log 2). Reset does drop the requests in line and the responses
pending: after it nothing is owed, and the accounts start again from no request presented and no
response taken (70_reset_and_hazards.md section 1, the spec's decision D18; log 11). -/
def Obligations.EveryActionKeepsTheAccounts : Prop :=
  ∀ (asked : List Request) (taken : List Response) (s : State), Accounted asked taken s →
    (∀ t, step s = .next t → Accounted asked taken t) ∧
    (∀ r, Accounted (asked ++ [r]) taken (present r s)) ∧
    Accounted asked (taken ++ (collectResponse s).1.toList) (collectResponse s).2 ∧
    Accounted [] [] (resetBlock s)

/-- Each request presented since the last reset gets exactly one response, which belongs to it: in
every reachable state the responses taken, then those pending, then those of the requests in line
are the responses of the requests presented since then, one for one (70_reset_and_hazards.md section 4,
the spec's decision D19; that a reset, which drops those in line, starts the count again is section
1 there and the spec's decision D18, log 11; the order is the model's choice, log 2). -/
def Obligations.EachRequestGetsExactlyOneResponse : Prop :=
  ∀ (asked : List Request) (taken : List Response) (s : State), Reachable asked taken s →
    taken ++ (s.responses ++ s.requests.map answerOf) = asked.map answerOf

/-- Every request gets its response after finitely many steps: as many steps as requests are in line,
from any state, serve them all, each with the response of its own, behind those already there; so
do they for requests that hosts present all at once; and each step serves the first and leaves the
others (70_reset_and_hazards.md section 4, 60_exceptions.md section 4, the spec's decision D19; the
order is the model's choice, log 2). -/
def Obligations.WaitingRequestsAreAllServed : Prop :=
  (∀ s : State, ∃ t, serve s.requests.length s = .next t ∧ t.requests = [] ∧
    t.responses = s.responses ++ s.requests.map answerOf) ∧
  (∀ (requests : List Request) (s : State),
    ∃ t, serve (s.requests.length + requests.length) (presentAll requests s) = .next t ∧
      t.requests = [] ∧ t.responses = s.responses ++ s.requests.map answerOf ++ requests.map answerOf) ∧
  (∀ (s : State) (r : Request) (rest : List Request), s.requests = r :: rest →
    ∃ t, step s = .next t ∧ t.requests = rest ∧ t.responses = s.responses ++ [answerOf r])
end

