-- ==== Sys2Proof/Laws/Bits.lean ====
section
/-! SUPPORT. The operators of 00_scope.md R10 and R11 bit by bit. -/

namespace Sys2Proof

@[simp] theorem mask_zero : mask 0 = 0 := rfl

theorem mask_lt (n : Nat) : mask n < 2 ^ n := by
  have := Nat.two_pow_pos n
  unfold mask; omega

@[simp] theorem mask_testBit (n i : Nat) : (mask n).testBit i = decide (i < n) := by
  simp [mask, Nat.testBit_two_pow_sub_one]

theorem and_mask (v n : Nat) : v &&& mask n = v % 2 ^ n := Nat.and_two_pow_sub_one_eq_mod v n

@[simp] theorem mask8_getLsbD (n i : Nat) : (mask8 n).getLsbD i = (decide (i < 8) && decide (i < n)) := by
  simp [mask8, BitVec.getLsbD_ofNat]

@[simp] theorem slice_testBit (v hi lo i : Nat) :
    (slice v hi lo).testBit i = (v.testBit (lo + i) && decide (i < hi - lo + 1)) := by
  simp [slice, Nat.testBit_shiftRight]

theorem slice_eq_mod (v hi lo : Nat) : slice v hi lo = v / 2 ^ lo % 2 ^ (hi - lo + 1) := by
  rw [slice, and_mask, Nat.shiftRight_eq_div_pow]

@[simp] theorem cat_testBit (a b n i : Nat) :
    (cat a b n).testBit i = ((decide (n ≤ i) && a.testBit (i - n)) || b.testBit i) := by
  simp [cat, Nat.testBit_or, Nat.testBit_shiftLeft]

/-- With `b` inside its `n` bits, concatenation is addition. -/
theorem cat_eq_add (a b n : Nat) (h : b < 2 ^ n) : cat a b n = a * 2 ^ n + b := by
  rw [cat, Nat.shiftLeft_eq, Nat.mul_comm, Nat.two_pow_add_eq_or_of_lt h]

end Sys2Proof
end

