-- ==== Sys2Proof/Laws/State.lean ====
section
/-! SUPPORT. What each update of the state leaves in each field, so that no later proof unfolds a
record update. -/

namespace Sys2Proof.Machine

/-! ### respond: the response, and no walk -/

@[simp] theorem respond_buffer (r : Response) (s : State) : (respond r s).buffer = s.buffer := rfl
@[simp] theorem respond_requests (r : Response) (s : State) : (respond r s).requests = s.requests := rfl
@[simp] theorem respond_walk (r : Response) (s : State) : (respond r s).walk = none := rfl
@[simp] theorem respond_responses (r : Response) (s : State) : (respond r s).responses = s.responses ++ [r] := rfl
@[simp] theorem respond_draws (r : Response) (s : State) : (respond r s).draws = s.draws := rfl

/-! ### raise: the error as the response, one more draw -/

@[simp] theorem raise_buffer (e : ErrKind) (s : State) : (raise e s).buffer = s.buffer := rfl
@[simp] theorem raise_requests (e : ErrKind) (s : State) : (raise e s).requests = s.requests := rfl
@[simp] theorem raise_walk (e : ErrKind) (s : State) : (raise e s).walk = none := rfl
@[simp] theorem raise_responses (e : ErrKind) (s : State) : (raise e s).responses = s.responses ++ [.err e] := rfl
@[simp] theorem raise_draws (e : ErrKind) (s : State) : (raise e s).draws = s.draws + 1 := rfl

/-! ### The walk variables -/

@[simp] theorem beginWalk_buffer (e : Nat) (s : State) : (beginWalk e s).buffer = s.buffer := rfl
@[simp] theorem beginWalk_requests (e : Nat) (s : State) : (beginWalk e s).requests = s.requests := rfl
@[simp] theorem beginWalk_walk (e : Nat) (s : State) :
    (beginWalk e s).walk = some { cur := e, k := 0, acc := 0 } := rfl
@[simp] theorem beginWalk_responses (e : Nat) (s : State) : (beginWalk e s).responses = s.responses := rfl
@[simp] theorem beginWalk_draws (e : Nat) (s : State) : (beginWalk e s).draws = s.draws := rfl

@[simp] theorem advanceWalk_buffer (w : Walk) (c : Byte) (s : State) : (advanceWalk w c s).buffer = s.buffer := rfl
@[simp] theorem advanceWalk_requests (w : Walk) (c : Byte) (s : State) : (advanceWalk w c s).requests = s.requests := rfl
@[simp] theorem advanceWalk_walk (w : Walk) (c : Byte) (s : State) :
    (advanceWalk w c s).walk = some { cur := w.cur - 8, k := w.k + 1, acc := accumulate w c } := rfl
@[simp] theorem advanceWalk_responses (w : Walk) (c : Byte) (s : State) :
    (advanceWalk w c s).responses = s.responses := rfl
@[simp] theorem advanceWalk_draws (w : Walk) (c : Byte) (s : State) : (advanceWalk w c s).draws = s.draws := rfl

@[simp] theorem finishWalk_buffer (a : Nat) (w : Walk) (c : Byte) (s : State) :
    (finishWalk a w c s).buffer = s.buffer := rfl
@[simp] theorem finishWalk_requests (a : Nat) (w : Walk) (c : Byte) (s : State) :
    (finishWalk a w c s).requests = s.requests := rfl
@[simp] theorem finishWalk_walk (a : Nat) (w : Walk) (c : Byte) (s : State) : (finishWalk a w c s).walk = none := rfl
@[simp] theorem finishWalk_responses (a : Nat) (w : Walk) (c : Byte) (s : State) :
    (finishWalk a w c s).responses =
      s.responses ++ [.ok (accumulate w (c &&& mask8 (spanWidth a w.cur)))] := rfl
@[simp] theorem finishWalk_draws (a : Nat) (w : Walk) (c : Byte) (s : State) : (finishWalk a w c s).draws = s.draws := rfl

/-! ### The ports and reset -/

@[simp] theorem presentWordFirst_buffer (w : ReqWord) (s : State) : (presentWordFirst w s).buffer = s.buffer := rfl
@[simp] theorem presentWordFirst_requests (w : ReqWord) (s : State) :
    (presentWordFirst w s).requests = { buffer := s.buffer, word := w } :: s.requests := rfl
@[simp] theorem presentWordFirst_walk (w : ReqWord) (s : State) : (presentWordFirst w s).walk = s.walk := rfl
@[simp] theorem presentWordFirst_responses (w : ReqWord) (s : State) :
    (presentWordFirst w s).responses = s.responses := rfl
@[simp] theorem presentWordFirst_draws (w : ReqWord) (s : State) : (presentWordFirst w s).draws = s.draws := rfl

@[simp] theorem present_buffer (r : Request) (s : State) : (present r s).buffer = s.buffer := rfl
@[simp] theorem present_requests (r : Request) (s : State) : (present r s).requests = s.requests ++ [r] := rfl
@[simp] theorem present_walk (r : Request) (s : State) : (present r s).walk = s.walk := rfl
@[simp] theorem present_responses (r : Request) (s : State) : (present r s).responses = s.responses := rfl
@[simp] theorem present_draws (r : Request) (s : State) : (present r s).draws = s.draws := rfl

@[simp] theorem resetBlock_buffer (s : State) : (resetBlock s).buffer = s.buffer := rfl
@[simp] theorem resetBlock_requests (s : State) : (resetBlock s).requests = [] := rfl
@[simp] theorem resetBlock_walk (s : State) : (resetBlock s).walk = none := rfl
@[simp] theorem resetBlock_responses (s : State) : (resetBlock s).responses = [] := rfl
@[simp] theorem resetBlock_draws (s : State) : (resetBlock s).draws = s.draws + 1 := rfl

@[simp] theorem collectResponse_fst (s : State) : (collectResponse s).1 = s.responses.head? := rfl
@[simp] theorem collectResponse_buffer (s : State) : (collectResponse s).2.buffer = s.buffer := rfl
@[simp] theorem collectResponse_requests (s : State) : (collectResponse s).2.requests = s.requests := rfl
@[simp] theorem collectResponse_walk (s : State) : (collectResponse s).2.walk = s.walk := rfl
@[simp] theorem collectResponse_responses (s : State) :
    (collectResponse s).2.responses = s.responses.tail := rfl
@[simp] theorem collectResponse_draws (s : State) : (collectResponse s).2.draws = s.draws + 1 := rfl

end Sys2Proof.Machine
end

