-- ==== Sys2Proof/Laws/Walk.lean ====
section
/-! SUPPORT. Everything one chunk step can do, and what running several of them means
(41_chunk_datapath.md R106 to R115). -/

namespace Sys2Proof.Machine

/-! ### Reading -/

theorem read_of_lt (b : Buffer) (i : Nat) (h : i < b.len) : b.read i = some (b.byteAt i) := by
  simp [Buffer.read, h]

theorem read_of_ge (b : Buffer) (i : Nat) (h : b.len ≤ i) : b.read i = none := by
  simp [Buffer.read, Nat.not_lt.2 h]

/-- Inside the buffer a read goes on with the byte. -/
theorem withByte_of_lt (i : Nat) (s : State) (go : Byte → StepOutcome) (h : i < s.buffer.len) :
    withByte i s go = go (s.buffer.byteAt i) := by
  simp [withByte, read_of_lt s.buffer i h]

/-- A read that goes on to a next state was inside the buffer. -/
theorem withByte_next {i : Nat} {s t : State} {go : Byte → StepOutcome} (h : withByte i s go = .next t) :
    i < s.buffer.len ∧ go (s.buffer.byteAt i) = .next t := by
  by_cases hi : i < s.buffer.len
  · exact ⟨hi, by rwa [withByte_of_lt i s go hi] at h⟩
  · simp [withByte, read_of_ge s.buffer i (Nat.not_lt.1 hi)] at h

/-! ### The parts of a chunk -/

/-- `low` bit by bit: the most significant bits of the byte, moved down (R107). -/
theorem lowPart_getLsbD (byte : Byte) (vbs j : Nat) (hv : vbs ≤ 8) :
    (lowPart byte vbs).getLsbD j = (decide (j < vbs) && byte.getLsbD (8 - vbs + j)) := by
  simp only [lowPart, BitVec.getLsbD_and, BitVec.getLsbD_ushiftRight, mask8_getLsbD]
  by_cases h : j < vbs
  · have : j < 8 := by omega
    simp [h, this]
  · simp [h]

/-- `high` bit by bit: the least significant bits of the byte before, moved up (R110). -/
theorem highPart_getLsbD (byte : Byte) (vbs j : Nat) :
    (highPart byte vbs).getLsbD j = (decide (vbs ≤ j) && decide (j < 8) && byte.getLsbD (j - vbs)) := by
  simp only [highPart, BitVec.getLsbD_shiftLeft, BitVec.getLsbD_and, mask8_getLsbD]
  by_cases h1 : j < 8 <;> by_cases h2 : vbs ≤ j
  · have h3 : ¬ j < vbs := by omega
    have h4 : j - vbs < 8 := by omega
    have h5 : j - vbs < 8 - vbs := by omega
    simp [h1, h2, h3, h4, h5]
  · have h3 : j < vbs := by omega
    simp [h2, h3]
  · simp [h1]
  · simp [h1]

/-- A mask on a byte, as naturals (R102). -/
theorem and_mask8_toNat (x : Byte) (n : Nat) : (x &&& mask8 n).toNat = x.toNat &&& mask n := by
  apply Nat.eq_of_testBit_eq
  intro j
  have hm : (mask8 n).toNat.testBit j = (decide (j < 8) && decide (j < n)) := mask8_getLsbD n j
  rw [BitVec.toNat_and, Nat.testBit_and, Nat.testBit_and, hm, mask_testBit]
  by_cases hj : j < 8
  · simp [hj]
  · have : x.toNat.testBit j = false :=
      Nat.testBit_lt_two_pow (lt_of_lt_of_le x.isLt (Nat.pow_le_pow_right (by omega) (by omega)))
    simp [this]

theorem sameByte_iff (start cur : Nat) : sameByte start cur = true ↔ cur / 8 = start / 8 := by
  simp [sameByte, byteIndex]

theorem sameByte_eq_false_iff (start cur : Nat) : sameByte start cur = false ↔ cur / 8 ≠ start / 8 := by
  simp [sameByte, byteIndex]

/-! ### One step -/

/-- The eight bits a cross-byte step forms (R110). -/
abbrev crossChunk (b : Buffer) (cur : Nat) : Byte :=
  lowPart (b.byteAt (byteIndex cur)) (validBits cur) + highPart (b.byteAt (byteIndex cur - 1)) (validBits cur)

theorem walkStep_idle (start : Nat) (s : State) (h : s.walk = none) : walkStep start s = .next s := by
  simp [walkStep, h]

theorem walkStep_sameByte {start : Nat} {s : State} {w : Walk} (h : s.walk = some w)
    (hlen : w.cur / 8 < s.buffer.len) (hsame : sameByte start w.cur = true) :
    walkStep start s =
      .next (finishWalk start w (lowPart (s.buffer.byteAt (byteIndex w.cur)) (validBits w.cur)) s) := by
  simp only [walkStep, h]
  rw [withByte_of_lt _ _ _ (by exact hlen)]
  simp [hsame]

theorem walkStep_crossFinal {start : Nat} {s : State} {w : Walk} (h : s.walk = some w)
    (hlen : w.cur / 8 < s.buffer.len) (hcross : sameByte start w.cur = false) (hrem : spanWidth start w.cur ≤ 8) :
    walkStep start s = .next (finishWalk start w (crossChunk s.buffer w.cur) s) := by
  simp only [walkStep, h]
  rw [withByte_of_lt _ _ _ (by exact hlen)]
  simp only [hcross]
  rw [if_neg (by simp), withByte_of_lt _ _ _ (by unfold byteIndex; omega), if_pos hrem]

theorem walkStep_crossGoesOn {start : Nat} {s : State} {w : Walk} (h : s.walk = some w)
    (hlen : w.cur / 8 < s.buffer.len) (hcross : sameByte start w.cur = false) (hrem : 8 < spanWidth start w.cur) :
    walkStep start s = .next (advanceWalk w (crossChunk s.buffer w.cur) s) := by
  simp only [walkStep, h]
  rw [withByte_of_lt _ _ _ (by exact hlen)]
  simp only [hcross]
  rw [if_neg (by simp), withByte_of_lt _ _ _ (by unfold byteIndex; omega), if_neg (by omega)]

/-- All a chunk step can do when it answers a next state: nothing, end the walk, or go on. -/
theorem walkStep_next_cases {start : Nat} {s t : State} (h : walkStep start s = .next t) :
    (s.walk = none ∧ t = s) ∨
    ∃ w, s.walk = some w ∧ w.cur / 8 < s.buffer.len ∧
      ((sameByte start w.cur = true ∧
          t = finishWalk start w (lowPart (s.buffer.byteAt (byteIndex w.cur)) (validBits w.cur)) s) ∨
        (sameByte start w.cur = false ∧ spanWidth start w.cur ≤ 8 ∧
          t = finishWalk start w (crossChunk s.buffer w.cur) s) ∨
        (sameByte start w.cur = false ∧ 8 < spanWidth start w.cur ∧
          t = advanceWalk w (crossChunk s.buffer w.cur) s)) := by
  cases hw : s.walk with
  | none => rw [walkStep_idle start s hw] at h; cases h; exact .inl ⟨rfl, rfl⟩
  | some w =>
    have hlen : w.cur / 8 < s.buffer.len := by
      simp only [walkStep, hw] at h
      exact (withByte_next h).1
    refine .inr ⟨w, rfl, hlen, ?_⟩
    cases hs : sameByte start w.cur with
    | true => rw [walkStep_sameByte hw hlen hs] at h; cases h; simp
    | false =>
      by_cases hr : spanWidth start w.cur ≤ 8
      · rw [walkStep_crossFinal hw hlen hs hr] at h; cases h; simp [hr]
      · rw [walkStep_crossGoesOn hw hlen hs (by omega)] at h; cases h; simp; omega

/-- No chunk step touches the buffer, the requests or the draws, and the only response it gives is one
value. -/
theorem walkStep_frame {start : Nat} {s t : State} (h : walkStep start s = .next t) :
    t.buffer = s.buffer ∧ t.requests = s.requests ∧ t.draws = s.draws ∧
      (t.responses = s.responses ∨ ∃ v, t.responses = s.responses ++ [.ok v]) := by
  obtain ⟨-, rfl⟩ | ⟨w, -, -, ⟨-, rfl⟩ | ⟨-, -, rfl⟩ | ⟨-, -, rfl⟩⟩ := walkStep_next_cases h <;> simp

/-! ### Several steps -/

@[simp] theorem runWalk_zero (start : Nat) (s : State) : runWalk start 0 s = .next s := rfl

theorem runWalk_succ_of_next {start n : Nat} {s t : State} (h : walkStep start s = .next t) :
    runWalk start (n + 1) s = runWalk start n t := by
  simp [runWalk, h]

/-- A run that answers a next state ran its first step to a next state. -/
theorem runWalk_succ_next {start n : Nat} {s u : State} (h : runWalk start (n + 1) s = .next u) :
    ∃ t, walkStep start s = .next t ∧ runWalk start n t = .next u := by
  simp only [runWalk] at h
  split at h
  · exact ⟨_, ‹_›, h⟩
  · cases h
  · cases h

/-- Stages after the end of the walk do nothing. -/
theorem runWalk_idle (start n : Nat) (s : State) (h : s.walk = none) : runWalk start n s = .next s := by
  induction n with
  | zero => rfl
  | succ n ih => rw [runWalk_succ_of_next (walkStep_idle start s h), ih]

/-- Steps in two parts. -/
theorem runWalk_add_of_next {start m n : Nat} {s t : State} (h : runWalk start m s = .next t) :
    runWalk start (m + n) s = runWalk start n t := by
  induction m generalizing s with
  | zero => cases h; simp
  | succ m ih =>
    obtain ⟨u, hu, hm⟩ := runWalk_succ_next h
    rw [Nat.succ_add, runWalk_succ_of_next hu, ih hm]

/-- A run touches neither the buffer, the requests nor the draws. -/
theorem runWalk_frame {start n : Nat} {s t : State} (h : runWalk start n s = .next t) :
    t.buffer = s.buffer ∧ t.requests = s.requests ∧ t.draws = s.draws := by
  induction n generalizing s with
  | zero => cases h; simp
  | succ n ih =>
    obtain ⟨u, hu, hn⟩ := runWalk_succ_next h
    have f := walkStep_frame hu
    obtain ⟨a, b, c⟩ := ih hn
    exact ⟨a.trans f.1, b.trans f.2.1, c.trans f.2.2.1⟩

end Sys2Proof.Machine
end

