-- ==== Sys2Proof/Laws/Buffer.lean ====
section
/-! SUPPORT. The buffer in its canonical form: laying bytes out keeps it, and they read back
(20_memory.md R40, R47; log 4). -/

namespace Sys2Proof.Machine

/-- Bytes laid out from `i` are canonical from `i` on. -/
theorem layOut_wfFrom (bytes : List Byte) (least i : Nat) (h : least ≤ i) :
    Memory.wfFrom least (Memory.layOut i bytes) = true := by
  induction bytes generalizing least i with
  | nil => rfl
  | cons b rest ih =>
    by_cases hb : b = Memory.unlisted
    · simp [Memory.layOut, hb, ih least (i + 1) (by omega)]
    · simp [Memory.layOut, hb, Memory.wfFrom, h, ih (i + 1) (i + 1) (Nat.le_refl _)]

/-- Every index laid out lies among the bytes. -/
theorem layOut_lt (bytes : List Byte) (i : Nat) : ∀ c ∈ Memory.layOut i bytes, c.1 < i + bytes.length := by
  induction bytes generalizing i with
  | nil => simp [Memory.layOut]
  | cons b rest ih =>
    intro c hc
    by_cases hb : b = Memory.unlisted
    · have := ih (i + 1) c (by simpa [Memory.layOut, hb] using hc)
      simp only [List.length_cons]; omega
    · simp only [Memory.layOut, hb, if_false, List.mem_cons] at hc
      rcases hc with rfl | hc
      · simp
      · have := ih (i + 1) c hc
        simp only [List.length_cons]; omega

/-- Below the first index laid out, nothing is listed. -/
theorem lookup_layOut_below (bytes : List Byte) (i j : Nat) (h : j < i) :
    Memory.lookup (Memory.layOut i bytes) j = Memory.unlisted := by
  induction bytes generalizing i with
  | nil => rfl
  | cons b rest ih =>
    have hij : i ≠ j := by omega
    by_cases hb : b = Memory.unlisted
    · simp [Memory.layOut, hb, ih (i + 1) (by omega)]
    · simp [Memory.layOut, hb, Memory.lookup, hij, ih (i + 1) (by omega)]

/-- Byte `j` of the bytes laid out from `i` reads back at index `i + j`. -/
theorem lookup_layOut (bytes : List Byte) (i j : Nat) :
    Memory.lookup (Memory.layOut i bytes) (i + j) = bytes[j]?.getD Memory.unlisted := by
  induction bytes generalizing i j with
  | nil => rfl
  | cons b rest ih =>
    cases j with
    | zero =>
      by_cases hb : b = Memory.unlisted
      · simpa [Memory.layOut, hb] using lookup_layOut_below rest (i + 1) i (by omega)
      · simp [Memory.layOut, hb, Memory.lookup]
    | succ j =>
      have := ih (i + 1) j
      rw [show i + 1 + j = i + (j + 1) by omega] at this
      by_cases hb : b = Memory.unlisted
      · simpa [Memory.layOut, hb] using this
      · simpa [Memory.layOut, hb, Memory.lookup] using this

/-- Laying a byte sequence out keeps the canonical form. -/
theorem ofBytes_wf (bytes : List Byte) : (Buffer.ofBytes bytes).wf = true := by
  have h := layOut_lt bytes 0
  simp only [Nat.zero_add] at h
  simp only [Buffer.wf, Buffer.ofBytes, Memory.wf, layOut_wfFrom bytes 0 0 (Nat.le_refl _), Bool.true_and,
    List.all_eq_true]
  exact fun c hc => decide_eq_true (h c hc)

@[simp] theorem ofBytes_len (bytes : List Byte) : (Buffer.ofBytes bytes).len = bytes.length := rfl

theorem ofBytes_byteAt (bytes : List Byte) (i : Nat) :
    (Buffer.ofBytes bytes).byteAt i = bytes[i]?.getD Memory.unlisted := by
  have := lookup_layOut bytes 0 i
  rwa [Nat.zero_add] at this

/-- The state after reset holds a canonical buffer. -/
theorem reset_buffer_wf : State.reset.buffer.wf = true := rfl

end Sys2Proof.Machine
end

