-- ==== Sys2Proof/Laws/Check.lean ====
section
/-! SUPPORT. What the three checks answer, said once (40_extract.md R81 to R84). -/

namespace Sys2Proof.Machine

/-- The checks as one chain of comparisons of naturals (R66). -/
theorem check_eq (start stopAt len : Nat) :
    check start stopAt len =
      if stopAt < start then some .invalidRange
      else if 32 < stopAt - start + 1 then some .widthExceeded
      else if 8 * len ≤ stopAt then some .outOfBounds
      else none := rfl

/-- No check fails exactly on a valid request. -/
theorem check_eq_none_iff (start stopAt len : Nat) : check start stopAt len = none ↔ Valid start stopAt len := by
  rw [check_eq, Valid]
  split_ifs <;> simp <;> omega

theorem check_of_valid {start stopAt len : Nat} (h : Valid start stopAt len) : check start stopAt len = none :=
  (check_eq_none_iff _ _ _).2 h

/-- Everything a failing check can be, with the cause of each. -/
theorem check_eq_some {start stopAt len : Nat} {kind : ErrKind} (h : check start stopAt len = some kind) :
    (kind = .invalidRange ∧ start > stopAt) ∨
    (kind = .widthExceeded ∧ start ≤ stopAt ∧ stopAt - start + 1 > 32) ∨
    (kind = .outOfBounds ∧ start ≤ stopAt ∧ stopAt - start + 1 ≤ 32 ∧ stopAt ≥ 8 * len) := by
  rw [check_eq] at h
  split_ifs at h <;> cases h <;> simp <;> omega

end Sys2Proof.Machine
end

