-- ==== Sys2Proof/Laws/Exec.lean ====
section
/-! SUPPORT. What fetching, dispatching and the meaning of EXTRACT come to, so that no later proof
unfolds them. -/

namespace Sys2Proof.Machine

theorem fetch_nil {s : State} (h : s.requests = []) : fetch s = none := by simp [fetch, h]

theorem fetch_cons {s : State} {r : Request} {rest : List Request} (h : s.requests = r :: rest) :
    fetch s = some (r.word, { s with requests := rest, buffer := r.buffer }) := by simp [fetch, h]

@[simp] theorem serve_zero (s : State) : serve 0 s = .next s := rfl

theorem serve_succ_of_next {n : Nat} {s t : State} (h : step s = .next t) : serve (n + 1) s = serve n t := by
  simp [serve, h]

@[simp] theorem owed_present (r : Request) (s : State) : (present r s).owed = s.owed ++ [answerOf r] := by
  simp [State.owed]

@[simp] theorem presentAll_requests (requests : List Request) (s : State) :
    (presentAll requests s).requests = s.requests ++ requests := by
  induction requests generalizing s with
  | nil => simp [presentAll]
  | cons r rest ih => simpa [presentAll] using ih (present r s)

@[simp] theorem presentAll_responses (requests : List Request) (s : State) :
    (presentAll requests s).responses = s.responses := by
  induction requests generalizing s with
  | nil => rfl
  | cons r rest ih => simpa [presentAll] using ih (present r s)

@[simp] theorem exec_extract (start stopAt : Nat) (s : State) :
    exec (.extract start stopAt) s = execExtract start stopAt s := rfl

/-- A request that fails a check takes the error. -/
theorem execExtract_of_check {start stopAt : Nat} {s : State} {kind : ErrKind}
    (h : check start stopAt s.buffer.len = some kind) : execExtract start stopAt s = .next (raise kind s) := by
  simp [execExtract, h]

/-- A valid request is served by the walk. -/
theorem execExtract_of_valid {start stopAt : Nat} {s : State} (h : Valid start stopAt s.buffer.len) :
    execExtract start stopAt s = runWalk start Config.maxSteps (beginWalk stopAt s) := by
  simp [execExtract, check_of_valid h]

/-- All EXTRACT can do when it answers a next state: the error of a check, or a run of the walk. -/
theorem execExtract_next_cases {start stopAt : Nat} {s t : State} (h : execExtract start stopAt s = .next t) :
    (∃ kind, check start stopAt s.buffer.len = some kind ∧ t = raise kind s) ∨
    (Valid start stopAt s.buffer.len ∧ runWalk start Config.maxSteps (beginWalk stopAt s) = .next t) := by
  cases hc : check start stopAt s.buffer.len with
  | some kind => rw [execExtract_of_check hc] at h; cases h; exact .inl ⟨kind, rfl, rfl⟩
  | none =>
    have hv := (check_eq_none_iff _ _ _).1 hc
    exact .inr ⟨hv, by rwa [execExtract_of_valid hv] at h⟩

/-- EXTRACT touches neither the buffer nor the requests that wait. -/
theorem execExtract_frame {start stopAt : Nat} {s t : State} (h : execExtract start stopAt s = .next t) :
    t.buffer = s.buffer ∧ t.requests = s.requests := by
  obtain ⟨kind, -, rfl⟩ | ⟨-, hr⟩ := execExtract_next_cases h
  · simp
  · have f := runWalk_frame hr
    exact ⟨f.1, f.2.1⟩

end Sys2Proof.Machine
end

