-- ==== Sys2Proof/Laws/Field.lean ====
section
/-! SUPPORT. The field of a range, bit by bit: the lemmas by which any way of computing a result is
compared with it. -/

namespace Sys2Proof.Machine

/-- A buffer bit is a bit of its byte (20_memory.md R43). -/
theorem bit_eq_getLsbD (b : Buffer) (p : Nat) :
    b.bit p = ((b.byteAt (p / 8)).getLsbD (7 - p % 8)).toNat := by
  rw [Buffer.bit, byteIndex, inByte, Nat.and_one_is_mod, BitVec.getLsbD, Nat.testBit_eq_decide_div_mod_eq,
    Nat.shiftRight_eq_div_pow]
  rcases Nat.mod_two_eq_zero_or_one ((b.byteAt (p / 8)).toNat / 2 ^ (7 - p % 8)) with h | h <;> simp [h]

theorem bit_lt_two (b : Buffer) (p : Nat) : b.bit p < 2 := by
  rw [bit_eq_getLsbD]; exact Bool.toNat_lt _

/-- No bits: the field of an empty range is 0. -/
theorem field_empty (b : Buffer) (s e : Nat) (h : e < s) : b.field s e = 0 := by
  have : e + 1 - s = 0 := by omega
  simp [Buffer.field, this]

/-- One more bit at the end moves the field up by one place. -/
theorem field_succ (b : Buffer) (s e : Nat) (h : s ≤ e + 1) :
    b.field s (e + 1) = 2 * b.field s e + b.bit (e + 1) := by
  obtain ⟨n, hn⟩ : ∃ n, e + 1 = s + n := ⟨e + 1 - s, by omega⟩
  have h1 : e + 1 + 1 - s = n + 1 := by omega
  have h2 : e + 1 - s = n := by omega
  have shift : ∀ i ∈ List.range n, b.bit (s + i) <<< (e + 1 - (s + i)) = 2 * (b.bit (s + i) <<< (e - (s + i))) := by
    intro i hi
    have := List.mem_range.1 hi
    rw [show e + 1 - (s + i) = (e - (s + i)) + 1 by omega, Nat.shiftLeft_succ]
  rw [Buffer.field, Buffer.field, h1, h2, List.range_succ, List.map_append, List.sum_append,
    List.map_congr_left shift, List.sum_map_mul_left]
  simp [hn]

/-- Bit `j` of the field is the buffer bit at `e - j`, inside the range, and 0 above it (40_extract.md
R85). -/
theorem field_testBit (b : Buffer) (s e j : Nat) :
    (b.field s e).testBit j = (decide (s + j ≤ e) && decide (b.bit (e - j) = 1)) := by
  induction e generalizing j with
  | zero =>
    by_cases hs : s = 0
    · subst hs
      have hb := bit_lt_two b 0
      have : b.field 0 0 = b.bit 0 := by simp [Buffer.field]
      rw [this]
      cases j with
      | zero => interval_cases b.bit 0 <;> simp
      | succ j => simp [Nat.testBit_lt_two_pow (show b.bit 0 < 2 ^ (j + 1) by
          have := Nat.one_lt_two_pow (n := j + 1) (by omega); omega)]
    · rw [field_empty b s 0 (by omega)]
      simp; omega
  | succ e ih =>
    by_cases hs : s ≤ e + 1
    · rw [field_succ b s e hs]
      have hb := bit_lt_two b (e + 1)
      cases j with
      | zero =>
        rw [Nat.testBit_zero]
        simp [hs, Nat.add_mod, Nat.mod_eq_of_lt hb]
      | succ j =>
        rw [Nat.testBit_succ, show (2 * b.field s e + b.bit (e + 1)) / 2 = b.field s e by omega, ih]
        simp only [Nat.reduceSubDiff]
        congr 1
        exact decide_eq_decide.2 (by omega)
    · rw [field_empty b s (e + 1) (by omega)]
      have : ¬ s + j ≤ e + 1 := by omega
      simp [this]

/-- The field fits the width of its range (20_memory.md R44). -/
theorem field_lt (b : Buffer) (s e n : Nat) (h : e + 1 ≤ s + n) : b.field s e < 2 ^ n := by
  apply Nat.lt_pow_two_of_testBit
  intro j hj
  have : ¬ s + j ≤ e := by omega
  simp [field_testBit, this]

/-- A valid result fits 32 bits (40_extract.md R88). -/
theorem field_toNat (b : Buffer) (s e : Nat) (h : e - s ≤ 31) :
    (BitVec.ofNat 32 (b.field s e)).toNat = b.field s e := by
  rw [BitVec.toNat_ofNat, Nat.mod_eq_of_lt (field_lt b s e 32 (by omega))]

/-- Buffers that agree on the bits of a range have the same field (40_extract.md R96). -/
theorem field_congr (b b' : Buffer) (s e : Nat) (h : ∀ p, s ≤ p → p ≤ e → b.bit p = b'.bit p) :
    b.field s e = b'.field s e := by
  apply Nat.eq_of_testBit_eq
  intro j
  rw [field_testBit, field_testBit]
  by_cases hj : s + j ≤ e
  · rw [h (e - j) (by omega) (by omega)]
  · simp [hj]

end Sys2Proof.Machine
end

