-- ==== Sys2Proof/Laws/PerInstr.lean ====
section
/-! SUPPORT. Facts about every instruction as syntax, one lemma for each constructor. -/

namespace Sys2Proof.Laws.EncodingFits

/-- The encoding of an instruction whose operands fit is a word of `2 x POSW` bits, for every `POSW`
(30_encoding.md R61). -/
def Statement (i : Instr) : Prop := ∀ posw : Nat, i.fits posw = true → encodeAt posw i < 2 ^ (2 * posw)

theorem extract (start stopAt : Nat) : Statement (.extract start stopAt) := by
  intro posw h
  simp only [Instr.fits, Bool.and_eq_true, decide_eq_true_eq] at h
  have hp : 2 ^ (2 * posw) = 2 ^ posw * 2 ^ posw := by rw [two_mul, Nat.pow_add]
  have hs : start * 2 ^ posw + 2 ^ posw ≤ 2 ^ posw * 2 ^ posw := by
    rw [← Nat.succ_mul]; exact Nat.mul_le_mul_right _ h.1
  rw [encodeAt, cat_eq_add _ _ _ h.2, hp]
  omega

end Sys2Proof.Laws.EncodingFits
end

