-- ==== Sys2Proof/Machine/Written.lean ====
section
/-! DEFINITION. The written form of requests and responses (30_encoding.md R70) and the two requests
the source has names for (R71). They are ordinary requests, not operations of their own. -/

namespace Sys2Proof.Machine

/-- Single-bit extraction, `extract(buf, p, p)` (R71). -/
def singleBit (p : Nat) : Instr := .extract p p

/-- Whole-byte extraction, `extract(buf, 8k, 8k + 7)` (R71). -/
def wholeByte (k : Nat) : Instr := .extract (8 * k) (8 * k + 7)

/-- The written form of a request on the buffer named `buf`, positions in decimal (R70). -/
def writtenRequest : Instr → String
  | .extract start stopAt => "extract(buf, " ++ toString start ++ ", " ++ toString stopAt ++ ")"

/-- The name of an error kind (R70). -/
def errName : ErrKind → String
  | .invalidRange => "InvalidRange"
  | .widthExceeded => "WidthExceeded"
  | .outOfBounds => "OutOfBounds"

/-- The written form of a response, a value in decimal (R70). -/
def writtenResponse : Response → String
  | .ok value => "-> " ++ toString value.toNat
  | .err kind => "-> " ++ errName kind

end Sys2Proof.Machine
end

