-- ==== Sys2Proof/Tests/Slice0.lean ====
section
/-! SUPPORT. The model's own tests, expected results from 95_test_vectors.md; and for every statement
with hypotheses a concrete input that meets them, at the boundary of its range where it has one. -/

namespace Sys2Proof.Tests

open Sys2Proof Sys2Proof.Machine

/-- The buffer of the source's scenario (95_test_vectors.md). -/
def scenario : List Byte := [0x94, 0xE0, 0xF5, 0xA8, 0x03]

/-- The block right after reset with a buffer on its input. -/
def idleWith (bytes : List Byte) : State := { State.reset with buffer := Buffer.ofBytes bytes }

/-- The same with a walk in progress. -/
def walkingWith (bytes : List Byte) (cur k : Nat) (acc : Word) : State :=
  { idleWith bytes with walk := some { cur := cur, k := k, acc := acc } }

/-- The response to one request word on a buffer. -/
def respondTo (bytes : List Byte) (w : ReqWord) : Option Response :=
  (transact { buffer := Buffer.ofBytes bytes, word := w } State.reset).1

/-- One bit and one byte of the scenario (S2, S5), as requests. -/
def bitRequest : Request := { buffer := Buffer.ofBytes scenario, word := 0x0000000800000008 }
def byteRequest : Request := { buffer := Buffer.ofBytes scenario, word := 0x000000070000000F }

/-- Both requests presented to the block right after reset, by two hosts or by one. -/
def twoInLine : State := present byteRequest (present bitRequest State.reset)

/-- The block with one response pending. -/
def pendingWith (r : Response) : State := respond r State.reset

/-! ### Well-formedness: an ill-formed term for each check -/

theorem test_wellFormed_refuses_a_wide_start : (Instr.extract 4294967296 0).wellFormed = false := by decide
theorem test_wellFormed_refuses_a_wide_end : (Instr.extract 0 4294967296).wellFormed = false := by decide
theorem test_wellFormed_accepts_the_largest : (Instr.extract 4294967295 4294967295).wellFormed = true := by decide

/-! ### Decoding: words written out from the format REQ (30_encoding.md R61) -/

/-- `start = 7` in bits 63:32, `end = 38` in bits 31:0 (S1). -/
theorem test_decode_extract : decode 0x0000000700000026 = .extract 7 38 := by decide
theorem test_encode_extract : encode (.extract 3 29) = 0x000000030000001D := by decide
theorem test_decode_table_word : decodeTableWord 64 0x0000002600000007 = some (.extract 38 7) := by decide
theorem test_decode_refuses_a_wide_word : decodeBits 65 0 = .error .widerThanRequest := by rfl
theorem test_decode_refuses_a_stray_bit : decodeBits 8 256 = .error .valueOutsideWidth := by rfl

/-! ### EXTRACT: one step on a small state -/

/-- S1 to S5, `(5, 10)` of section 2.3 and `(31, 62)` of section 2.9. -/
theorem test_extract_values :
    respondTo scenario 0x0000000700000026 = some (.ok 0x707AD401) ∧
    respondTo scenario 0x0000000800000008 = some (.ok 1) ∧
    respondTo scenario 0x0000000800000014 = some (.ok 0x1C1E) ∧
    respondTo scenario 0x000000030000001D = some (.ok 0x05383D6A) ∧
    respondTo scenario 0x000000070000000F = some (.ok 0xE0) ∧
    respondTo scenario 0x000000050000000A = some (.ok 0x27) ∧
    respondTo [0x01, 0x23, 0x45, 0x67, 0x89, 0xAB, 0xCD, 0xEF] 0x0000001F0000003E = some (.ok 0xC4D5E6F7) := by
  decide

/-- Section 2.7: each error, the doubly wrong requests, the width that would wrap, the empty buffer. -/
theorem test_extract_errors :
    respondTo scenario 0x0000000500000004 = some (.err .invalidRange) ∧
    respondTo scenario 0x0000002900000028 = some (.err .invalidRange) ∧
    respondTo scenario 0x0000000700000027 = some (.err .widthExceeded) ∧
    respondTo scenario 0x00000000FFFFFFFF = some (.err .widthExceeded) ∧
    respondTo scenario 0x0000002100000028 = some (.err .outOfBounds) ∧
    respondTo [] 0x0000000000000000 = some (.err .outOfBounds) := by
  decide

/-! ### Words on the outputs -/

/-- The RSP word of S1. -/
theorem test_response_word : (pendingWith (.ok 0x707AD401)).rspPort = some 0x0707AD401 := by decide

/-! ### Requests in line: two presented, then two steps and two collections -/

/-- Neither request is lost, each gets the response of its own (S2, S5), and an error between changes
neither (section 2.7). -/
theorem test_every_request_presented_is_answered :
    (match serve 3 (present byteRequest (presentWordFirst 0x0000000500000004 (present bitRequest State.reset))) with
      | .next t => some (t.responses, t.requests)
      | _ => none) =
      some ([.err .invalidRange, .ok 1, .ok 0xE0], []) := by decide

theorem test_collecting_takes_the_oldest :
    (match serve 2 twoInLine with
      | .next t => some ((collectResponse t).1, (collectResponse (collectResponse t).2).1)
      | _ => none) = some (some (.ok 1), some (.ok 0xE0)) := by decide

/-- 30_encoding.md R70, with the example of 60_exceptions.md R130. -/
theorem test_written_form :
    writtenRequest (.extract 7 38) = "extract(buf, 7, 38)" ∧
      writtenResponse (.err .invalidRange) = "-> InvalidRange" := by decide

/-! ### Witnesses: the hypotheses of each statement can be met -/

theorem witness_IdleBlockStaysAsItIs : State.reset.requests = [] := rfl

theorem witness_DecodeAndEncodeAreInverse :
    (1 ≤ 1 ∧ (Instr.extract 1 0).fits 1 = true) ∧ (1 ≤ 1 ∧ 3 < 2 ^ (2 * 1)) ∧
      (Instr.extract 4294967295 4294967295).wellFormed = true := by decide

theorem witness_TableWordsDecodeOrAreRefusedByName :
    (64 ≤ 64 ∧ 18446744073709551615 < 2 ^ 64) ∧ (8 ≤ 64 ∧ 2 ^ 8 ≤ 256) ∧ 64 < 65 := by decide

theorem witness_StepRunsTheDecodedRequest :
    twoInLine.requests = [bitRequest, byteRequest] ∧
    ((Instr.extract 8 8).wellFormed = true ∧ bitRequest.word = encode (.extract 8 8)) ∧
    decodeTableWord 64 0xFFFFFFFFFFFFFFFF = some (.extract 4294967295 4294967295) := by decide

theorem witness_FirstCheckRaisesInvalidRange :
    1 > 0 ∧ 39 < 8 * (idleWith scenario).buffer.len ∧
      ∃ t, exec (.extract 8 8) (idleWith scenario) = .next t ∧
        t.responses = (idleWith scenario).responses ++ [.ok 1] :=
  ⟨by decide, by decide, _, rfl, by decide⟩

theorem witness_SecondCheckRaisesWidthExceeded : 0 ≤ 32 ∧ 32 - 0 ≥ 32 := by decide

theorem witness_ThirdCheckRaisesOutOfBounds :
    (9 ≤ 40 ∧ 40 - 9 ≤ 31 ∧ 40 ≥ 8 * (idleWith scenario).buffer.len) ∧ 0 < (idleWith scenario).buffer.len ∧
      (State.reset.buffer.len = 0 ∧ 0 ≤ 0 ∧ 0 - 0 ≤ 31) := by decide

theorem witness_FirstCauseInOrderIsReported :
    ∃ t, exec (.extract 0 100) (idleWith scenario) = .next t ∧
      t.responses = (idleWith scenario).responses ++ [.err .widthExceeded] :=
  ⟨_, rfl, by decide⟩

/-- The last step of `extract(buf, 3, 29)` (S4) and a stage after it. -/
theorem witness_ErrorsComeBeforeAnyByteIsRead :
    (¬ Valid 40 40 5 ∧ (idleWith scenario).buffer.len = 5) ∧
      ∃ t, runWalk 3 2 (walkingWith scenario 5 3 0x383D6A) = .next t ∧ t.responses = [.ok 0x05383D6A] :=
  ⟨by decide, _, rfl, by decide⟩

theorem witness_FailingRequestDeliversAndChangesNothing :
    ¬ Valid 0 32 (idleWith scenario).buffer.len ∧ (idleWith [1, 2, 3, 4, 5]).buffer.len = (idleWith scenario).buffer.len := by
  decide

theorem witness_EmptyBufferOnlyGivesErrors : (idleWith []).buffer.len = 0 := by decide

theorem witness_PositionFieldsAreBitSlices : 4 ≤ 4 ∧ 15 < 2 ^ 4 := by decide

theorem witness_ResponseWordHoldsStatusAndValue :
    (pendingWith (.ok 0xFFFFFFFF)).responses = [.ok 0xFFFFFFFF] ∧
      (raise .outOfBounds (pendingWith (.err .invalidRange))).responses = [.err .invalidRange, .err .outOfBounds] ∧
      State.reset.responses = [] := by decide

theorem witness_StepDrivesTheResponseWord :
    (twoInLine.requests = [bitRequest, byteRequest] ∧ twoInLine.responses = []) ∧
      (present byteRequest (pendingWith (.ok 1))).responses = [.ok 1] := by decide

theorem witness_BitNumberingIsMostSignificantFirst :
    39 < 8 * (Buffer.ofBytes scenario).len ∧ (Buffer.ofBytes scenario).byteAt 1 = 0xE0 := by decide

theorem witness_FieldIsBigEndian :
    (39 ≤ 39 ∧ 39 < 8 * (Buffer.ofBytes scenario).len) ∧
      (1 ≤ 5 ∧ 8 * 0 + 8 * 5 - 1 < 8 * (Buffer.ofBytes scenario).len) := by decide

theorem witness_BuffersHoldEveryByteSequence :
    (Buffer.ofBytes [0x00, 0xA5, 0x00]).wf = true ∧ (Buffer.ofBytes []).wf = true := by decide

theorem witness_FieldSplitsAtAnyPosition : 0 ≤ 0 ∧ 0 < 1 := by decide

theorem witness_ExtractReturnsTheBitsOfTheRange :
    Valid 8 39 (idleWith scenario).buffer.len ∧ (31 < 39 - 8 + 1) ∧
      (Valid 7 37 (idleWith scenario).buffer.len ∧ 37 - 7 + 1 ≤ 31 ∧ 31 < 32) := by decide

theorem witness_ExtractFollowsItsPseudocode :
    (idleWith scenario).buffer = Buffer.ofBytes [0x94, 0xE0, 0xF5, 0xA8, 0x03] := by decide

theorem witness_SingleBitExtraction : 39 < 8 * (idleWith scenario).buffer.len := by decide

theorem witness_WholeByteExtraction :
    4 < (idleWith scenario).buffer.len ∧ (1 ≤ 4 ∧ 4 ≤ 4 ∧ 1 + 4 ≤ (idleWith scenario).buffer.len) := by decide

theorem witness_FullWidthResultIsUnsigned :
    8 + 31 < 8 * (idleWith scenario).buffer.len ∧ (idleWith scenario).buffer.bit 8 = 1 := by decide

/-- The two buffers of section 2.11, which differ in every bit outside positions 5 to 28. -/
theorem witness_ResponseDependsOnlyOnTheBitsOfTheRange :
    Valid 5 28 (idleWith scenario).buffer.len ∧ Valid 5 28 (idleWith [0x6C, 0xE0, 0xF5, 0xAF]).buffer.len ∧
      ∀ p, 5 ≤ p → p ≤ 28 → (idleWith scenario).buffer.bit p = (idleWith [0x6C, 0xE0, 0xF5, 0xAF]).buffer.bit p := by
  have h : ∀ p < 29, 5 ≤ p → (idleWith scenario).buffer.bit p = (idleWith [0x6C, 0xE0, 0xF5, 0xAF]).buffer.bit p := by
    decide
  exact ⟨by decide, by decide, fun p h5 h28 => h p (by omega) h5⟩

theorem witness_ResponseDependsOnlyOnTheBytesOfTheRange :
    (idleWith scenario).buffer.len = (idleWith [0x94, 0xE0, 0xF5, 0xA8, 0xFC]).buffer.len ∧
      Valid 0 31 (idleWith scenario).buffer.len ∧
      ∀ i, 0 / 8 ≤ i → i ≤ 31 / 8 →
        (idleWith scenario).buffer.read i = (idleWith [0x94, 0xE0, 0xF5, 0xA8, 0xFC]).buffer.read i := by
  have h : ∀ i < 4, (idleWith scenario).buffer.read i = (idleWith [0x94, 0xE0, 0xF5, 0xA8, 0xFC]).buffer.read i := by
    decide
  exact ⟨by decide, by decide, fun i _ h3 => h i (by omega)⟩

theorem witness_BufferIsReadOnly :
    twoInLine.requests = bitRequest :: [byteRequest] ∧
      ((idleWith scenario).requests = [] ∧ step (idleWith scenario) = .next (idleWith scenario)) :=
  ⟨by decide, rfl, rfl⟩

theorem witness_WalkStartsAtEnd : Valid 3 29 (idleWith scenario).buffer.len := by decide

theorem witness_ByteBoundaryTest : 8 ≤ 8 ∧ (sameByte 8 8 = true) ∧ 7 ≤ 8 ∧ sameByte 7 8 = false := by decide

theorem witness_LowPartIsTheFieldUpToTheCursor : 39 < 8 * (Buffer.ofBytes scenario).len := by decide

/-- The last step of `extract(buf, 3, 29)` (S4). -/
theorem witness_SameByteStepEndsTheWalk :
    (walkingWith scenario 5 3 0x383D6A).walk = some { cur := 5, k := 3, acc := 0x383D6A } ∧ 3 ≤ 5 ∧
      5 < 8 * (walkingWith scenario 5 3 0x383D6A).buffer.len ∧ 5 / 8 = 3 / 8 := by decide

theorem witness_CrossByteChunkIsEightBufferBits :
    (39 < 8 * (Buffer.ofBytes scenario).len ∧ 39 / 8 > 31 / 8 ∧ 39 % 8 = 7) ∧
      (8 < 8 * (Buffer.ofBytes scenario).len ∧ 8 / 8 > 7 / 8) := by decide

/-- Nine bits left, the fewest with which a walk goes on. -/
theorem witness_CrossByteStepMovesTheCursorByEight :
    (walkingWith scenario 15 0 0).walk = some { cur := 15, k := 0, acc := 0 } ∧
      15 < 8 * (walkingWith scenario 15 0 0).buffer.len ∧ 15 / 8 > 7 / 8 ∧ spanWidth 7 15 > 8 := by decide

/-- Two bits in two bytes, and eight bits in two bytes (section 2.3). -/
theorem witness_CrossByteFinalStepEndsTheWalk :
    ((walkingWith scenario 8 0 0).walk = some { cur := 8, k := 0, acc := 0 } ∧ 7 ≤ 8 ∧
      8 < 8 * (walkingWith scenario 8 0 0).buffer.len ∧ 8 / 8 > 7 / 8 ∧ 8 - 7 + 1 ≤ 8) ∧
    (1 ≤ 8 ∧ 8 / 8 > 1 / 8 ∧ 8 - 1 + 1 ≤ 8) := by decide

theorem witness_WalkReadsExactlyTheBytesOfTheRange :
    ((walkingWith scenario 10 0 0).walk = some { cur := 10, k := 0, acc := 0 } ∧
      (walkingWith [0x94, 0xE0] 10 0 0).walk = some { cur := 10, k := 0, acc := 0 } ∧
      (walkingWith [0x94, 0xE0] 10 0 0).responses = (walkingWith scenario 10 0 0).responses ∧
      ∀ i ∈ stepReads 5 10,
        (walkingWith [0x94, 0xE0] 10 0 0).buffer.read i = (walkingWith scenario 10 0 0).buffer.read i) ∧
    Completes (walkStep 5 (walkingWith scenario 10 0 0)) ∧ Completes (walkStep 5 (walkingWith [0x94, 0xE0] 10 0 0)) ∧
    (Valid 7 32 5 ∧ 32 / 8 - 7 / 8 + 1 = 5) :=
  ⟨by decide, ⟨_, rfl⟩, ⟨_, rfl⟩, by decide⟩

theorem witness_WalkAdditionsNeverCarry :
    8 ≤ 8 ∧ ({ cur := 5, k := 3, acc := 0xFFFFFF } : Walk).k ≤ 3 ∧
      ({ cur := 5, k := 3, acc := 0xFFFFFF } : Walk).acc.toNat <
        2 ^ (8 * ({ cur := 5, k := 3, acc := 0xFFFFFF } : Walk).k) := by decide

/-- The start of `extract(buf, 7, 38)` and the start of its last step (S1). -/
theorem witness_ChunkStepKeepsTheWalkInvariant :
    (Valid 7 38 (walkingWith scenario 38 0 0).buffer.len ∧
      WalkInv 7 38 (walkingWith scenario 38 0 0) { cur := 38, k := 0, acc := 0 }) ∧
    WalkInv 7 38 (walkingWith scenario 14 3 0x7AD401) { cur := 14, k := 3, acc := 0x7AD401 } := by
  unfold WalkInv; decide

theorem witness_WalkTakesOneStepForEachByteOfTheResult :
    Valid 7 38 (idleWith scenario).buffer.len ∧ 3 < (38 - 7 + 1 + 7) / 8 ∧ (38 - 7 + 1 + 7) / 8 ≤ 4 := by decide

theorem witness_ChunkIsAByteOfTheResult :
    Valid 7 38 (Buffer.ofBytes scenario).len ∧ 8 * 3 < 38 - 7 + 1 := by decide

theorem witness_OracleIsTheField : 8 ≤ 20 := by decide

theorem witness_WindowFormIsTheField : Valid 7 38 (Buffer.ofBytes scenario).len := by decide

theorem witness_UnrolledFormIsTheField : Valid 39 39 (Buffer.ofBytes scenario).len := by decide

/-- One request of each of the three kinds of R117. -/
theorem witness_LiteralWalkAgreesWhereItHasAMeaning :
    (Valid 8 20 (Buffer.ofBytes scenario).len ∧ 5 = (20 - 8) % 8 + 1 ∧ ¬ (5 < 8 ∧ 8 % 8 + 5 > 8)) ∧
    (Valid 7 38 (Buffer.ofBytes scenario).len ∧ 8 = (38 - 7) % 8 + 1 ∧ 7 % 8 ≠ 0) ∧
    (Valid 7 8 (Buffer.ofBytes scenario).len ∧ 2 = (8 - 7) % 8 + 1 ∧ 2 < 8 ∧ 7 % 8 + 2 > 8) := by decide

theorem witness_ErrorLeavesNoTrace :
    (transact { buffer := Buffer.ofBytes scenario, word := 0x0000000700000027 } State.reset).1 =
      some (.err .widthExceeded) := by decide

theorem witness_StepKeepsTheInvariant : twoInLine.Inv ∧ Completes (step twoInLine) :=
  ⟨by unfold State.Inv; decide, _, rfl⟩

/-- Two requests presented, the first served, its response taken, the second still in line. -/
theorem reachable_oneTaken :
    ∃ s, Reachable [bitRequest, byteRequest] [.ok 1] s ∧ s.requests = [byteRequest] ∧ s.responses = [] := by
  refine ⟨_, .collect _ [] _ (.step _ _ twoInLine _ (.present [bitRequest] _ _ _ (.present [] _ _ _ .reset ?_) ?_) rfl), ?_⟩
  all_goals decide

theorem witness_ReachableStatesAreInvariantAndLive : ∃ asked taken s, Reachable asked taken s ∧ s.requests ≠ [] :=
  have ⟨s, h, hq, _⟩ := reachable_oneTaken
  ⟨_, _, s, h, by simp [hq]⟩

theorem witness_EveryActionKeepsTheAccounts :
    Accounted [bitRequest, byteRequest] [] twoInLine ∧ Completes (step twoInLine) :=
  ⟨rfl, _, rfl⟩

theorem witness_EachRequestGetsExactlyOneResponse :
    ∃ s, Reachable [bitRequest, byteRequest] [.ok 1] s :=
  have ⟨s, h, _⟩ := reachable_oneTaken
  ⟨s, h⟩

theorem witness_WaitingRequestsAreAllServed : twoInLine.requests = bitRequest :: [byteRequest] := by decide

end Sys2Proof.Tests
end

section
/-! PROOFS. Bit numbering of the buffer (20_memory.md R43). -/

namespace Sys2Proof.Machine

/-- Position 0 of a byte is worth 0x80 in it (R43). -/
theorem bit_of_inByte_zero (b : Buffer) (p : Nat) (h : inByte p = 0) :
    b.bit p = (b.byteAt (byteIndex p)).toNat / 128 := by
  have hlt : (b.byteAt (byteIndex p)).toNat < 256 := (b.byteAt (byteIndex p)).isLt
  rw [Buffer.bit, h, Nat.and_one_is_mod, Nat.shiftRight_eq_div_pow]
  omega

/-- Position 7 of a byte is worth 0x01 in it (R43). -/
theorem bit_of_inByte_seven (b : Buffer) (p : Nat) (h : inByte p = 7) :
    b.bit p = (b.byteAt (byteIndex p)).toNat % 2 := by
  rw [Buffer.bit, h, Nat.and_one_is_mod, Nat.sub_self, Nat.shiftRight_zero]

/-- Settles O22: the general clause is `bit_eq_getLsbD`, the ends of a byte are the two lemmas above,
and R43's example is evaluated on the byte that holds both of its positions. -/
theorem bitNumberingIsMostSignificantFirst : Obligations.BitNumberingIsMostSignificantFirst := by
  refine ⟨fun b p _ => bit_eq_getLsbD b p, fun b => ⟨?_, ?_, ?_⟩, fun b hbyte => ⟨?_, ?_⟩⟩
  · exact bit_of_inByte_zero b 0 rfl
  · exact bit_of_inByte_seven b 7 rfl
  · exact bit_of_inByte_zero b 8 rfl
  · have hbit : b.bit 8 = (b.byteAt 1).toNat / 128 := bit_of_inByte_zero b 8 rfl
    rw [hbit, hbyte]; rfl
  · have hbit : b.bit 11 = ((b.byteAt 1).getLsbD 4).toNat := bit_eq_getLsbD b 11
    rw [hbit, hbyte]; rfl

end Sys2Proof.Machine
end

section
/-! PROOFS. The chunks of the walk, read as buffer bits (41_chunk_datapath.md R107, R110). -/

namespace Sys2Proof.Machine

/-- A bit of a byte is the buffer bit at its position, the most significant first (20_memory.md R43). -/
theorem byteAt_getLsbD (b : Buffer) {i j p : Nat} (hp : p + j = 8 * i + 7) (hj : j < 8) :
    (b.byteAt i).getLsbD j = decide (b.bit p = 1) := by
  have hbyte : p / 8 = i := by omega
  have hplace : 7 - p % 8 = j := by omega
  rw [bit_eq_getLsbD, hbyte, hplace]
  cases (b.byteAt i).getLsbD j <;> rfl

/-- `low` counts back from the cursor to the start of its byte. -/
theorem lowPart_byteAt_getLsbD (b : Buffer) (cur j : Nat) :
    (lowPart (b.byteAt (byteIndex cur)) (validBits cur)).getLsbD j =
      (decide (j < validBits cur) && decide (b.bit (cur - j) = 1)) := by
  unfold validBits inByte byteIndex
  rw [lowPart_getLsbD _ _ _ (by omega)]
  by_cases hj : j < cur % 8 + 1
  · rw [byteAt_getLsbD b (p := cur - j) (by omega) (by omega)]
  · simp [hj]

/-- `high` goes on counting back in the byte before. -/
theorem highPart_byteAt_getLsbD (b : Buffer) (cur j : Nat) (hcur : 8 ≤ cur) :
    (highPart (b.byteAt (byteIndex cur - 1)) (validBits cur)).getLsbD j =
      (decide (validBits cur ≤ j) && decide (j < 8) && decide (b.bit (cur - j) = 1)) := by
  unfold validBits inByte byteIndex
  rw [highPart_getLsbD]
  by_cases hj : cur % 8 + 1 ≤ j ∧ j < 8
  · rw [byteAt_getLsbD b (p := cur - j) (by omega) (by omega)]
  · rcases not_and_or.mp hj with h | h <;> simp [h]

/-- `low` and `high` have no bit in common, so their sum is their OR (R103). -/
theorem lowPart_add_highPart (here before : Byte) (vbs : Nat) (hv : vbs ≤ 8) :
    lowPart here vbs + highPart before vbs = lowPart here vbs ||| highPart before vbs := by
  apply BitVec.add_eq_or_of_and_eq_zero
  apply BitVec.eq_of_getLsbD_eq
  intro j _
  rw [BitVec.getLsbD_and, lowPart_getLsbD _ _ _ hv, highPart_getLsbD]
  by_cases hj : j < vbs
  · simp [Nat.not_le.2 hj]
  · simp [hj]

/-- A cross-byte chunk is the eight buffer bits that end at the cursor (R110). -/
theorem crossChunk_getLsbD (b : Buffer) (cur j : Nat) (hcur : 8 ≤ cur) :
    (crossChunk b cur).getLsbD j = (decide (j < 8) && decide (b.bit (cur - j) = 1)) := by
  have hv : validBits cur ≤ 8 := by unfold validBits inByte; omega
  rw [crossChunk, lowPart_add_highPart _ _ _ hv, BitVec.getLsbD_or, lowPart_byteAt_getLsbD,
    highPart_byteAt_getLsbD b cur j hcur]
  by_cases hj : j < validBits cur
  · simp [hj, Nat.not_le.2 hj, lt_of_lt_of_le hj hv]
  · simp [hj, Nat.not_lt.1 hj]

theorem crossChunk_toNat (b : Buffer) (cur : Nat) (hcur : 8 ≤ cur) :
    (crossChunk b cur).toNat = b.field (cur - 7) cur := by
  apply Nat.eq_of_testBit_eq
  intro j
  rw [BitVec.testBit_toNat, crossChunk_getLsbD b cur j hcur, field_testBit]
  congr 1
  exact decide_eq_decide.2 (by omega)

/-- A chunk whose bits count back from the cursor, cut to the bits left, is the field from `start` to the
cursor: the last chunk of every walk (R109, R111). -/
theorem cutChunk_toNat {b : Buffer} {start cur : Nat} {chunk : Byte} (hle : start ≤ cur)
    (hrem : spanWidth start cur ≤ 8)
    (hbits : ∀ j < spanWidth start cur, chunk.getLsbD j = decide (b.bit (cur - j) = 1)) :
    (chunk &&& mask8 (spanWidth start cur)).toNat = b.field start cur := by
  apply Nat.eq_of_testBit_eq
  intro j
  rw [BitVec.testBit_toNat, BitVec.getLsbD_and, mask8_getLsbD, field_testBit]
  have hspan : spanWidth start cur = cur - start + 1 := rfl
  by_cases hj : j < spanWidth start cur
  · have h8 : j < 8 := by omega
    have hin : start + j ≤ cur := by omega
    rw [hbits j hj]
    simp [hj, h8, hin]
  · have hout : ¬ start + j ≤ cur := by omega
    simp [hj, hout]

end Sys2Proof.Machine
end

section
/-! PROOFS. A chunk added to the accumulator extends the field of the bits done
(41_chunk_datapath.md R112). -/

namespace Sys2Proof.Machine

/-- A range cut after `m`: the bits up to `m` stand above the others (40_extract.md R94). -/
theorem field_split (b : Buffer) {s m e : Nat} (hs : s ≤ m + 1) (hm : m ≤ e) :
    b.field s e = b.field s m * 2 ^ (e - m) + b.field (m + 1) e := by
  induction e, hm using Nat.le_induction with
  | base => simp [field_empty b (m + 1) m (Nat.lt_succ_self m)]
  | succ e hme ih =>
    rw [field_succ b s e (by omega), field_succ b (m + 1) e (by omega), ih, Nat.succ_sub hme, Nat.pow_succ]
    ring

theorem accumulate_toNat (w : Walk) (chunk : Byte) :
    (accumulate w chunk).toNat = (w.acc.toNat + chunk.toNat * 2 ^ (8 * w.k)) % 2 ^ 32 := by
  rw [accumulate, BitVec.toNat_add, BitVec.toNat_shiftLeft, BitVec.toNat_setWidth_of_le (by decide),
    Nat.shiftLeft_eq, Nat.add_mod_mod]

/-- With the field after the cursor in the accumulator, adding the field from `lo` to the cursor gives the
field from `lo`. -/
theorem accumulate_toNat_of_fields {b : Buffer} {w : Walk} {chunk : Byte} {lo stopAt : Nat}
    (hacc : w.acc.toNat = b.field (w.cur + 1) stopAt) (hchunk : chunk.toNat = b.field lo w.cur)
    (hk : stopAt = w.cur + 8 * w.k) (hlo : lo ≤ w.cur + 1) (hwidth : stopAt - lo ≤ 31) :
    (accumulate w chunk).toNat = b.field lo stopAt := by
  have hsplit : b.field lo stopAt = b.field lo w.cur * 2 ^ (8 * w.k) + b.field (w.cur + 1) stopAt := by
    rw [field_split b hlo (show w.cur ≤ stopAt by omega), show stopAt - w.cur = 8 * w.k by omega]
  rw [accumulate_toNat, hacc, hchunk, Nat.add_comm, ← hsplit,
    Nat.mod_eq_of_lt (field_lt b lo stopAt 32 (by omega))]

end Sys2Proof.Machine
end

section
/-! PROOFS. The walk of a valid request ends with the field of its range (41_chunk_datapath.md R121):
one lemma for a step that ends it, one for a step that goes on, and the induction over the steps. -/

namespace Sys2Proof.Machine

/-- The response of a valid request. -/
abbrev fieldResponse (b : Buffer) (start stopAt : Nat) : Response :=
  .ok (BitVec.ofNat 32 (b.field start stopAt))

theorem walkInv_beginWalk {start stopAt : Nat} (s : State) (hle : start ≤ stopAt) :
    WalkInv start stopAt (beginWalk stopAt s) { cur := stopAt, k := 0, acc := 0 } :=
  ⟨rfl, hle, Nat.le_refl _, Nat.sub_self _, (field_empty _ _ _ (Nat.lt_succ_self stopAt)).symm⟩

/-- The last chunk completes the field. -/
theorem finishWalk_of_walkInv {start stopAt : Nat} {s : State} {w : Walk} {chunk : Byte}
    (hv : Valid start stopAt s.buffer.len) (hi : WalkInv start stopAt s w)
    (hchunk : (chunk &&& mask8 (spanWidth start w.cur)).toNat = s.buffer.field start w.cur) :
    finishWalk start w chunk s = respond (fieldResponse s.buffer start stopAt) s := by
  obtain ⟨-, hwidth, -⟩ := hv
  obtain ⟨-, hlo, hhi, hk, hacc⟩ := hi
  have hval : accumulate w (chunk &&& mask8 (spanWidth start w.cur)) =
      BitVec.ofNat 32 (s.buffer.field start stopAt) := by
    apply BitVec.eq_of_toNat_eq
    rw [accumulate_toNat_of_fields hacc hchunk (by omega) (by omega) hwidth, field_toNat _ _ _ hwidth]
  rw [finishWalk, hval]

/-- With at most 8 bits left a step ends the walk, in one byte or across two (R109, R111). -/
theorem walkStep_ends {start stopAt : Nat} {s : State} {w : Walk} (hv : Valid start stopAt s.buffer.len)
    (hi : WalkInv start stopAt s w) (hrem : spanWidth start w.cur ≤ 8) :
    walkStep start s = .next (respond (fieldResponse s.buffer start stopAt) s) := by
  have ⟨_, _, hbound⟩ := hv
  have ⟨hw, hlo, hhi, _, _⟩ := hi
  have hspan : spanWidth start w.cur = w.cur - start + 1 := rfl
  cases hb : sameByte start w.cur with
  | true =>
    have hbyte := (sameByte_iff _ _).1 hb
    have hvb : validBits w.cur = w.cur % 8 + 1 := rfl
    rw [walkStep_sameByte hw (by omega) hb, finishWalk_of_walkInv hv hi]
    refine cutChunk_toNat hlo hrem fun j hj => ?_
    rw [lowPart_byteAt_getLsbD]
    simp [show j < validBits w.cur by omega]
  | false =>
    have hbyte := (sameByte_eq_false_iff _ _).1 hb
    rw [walkStep_crossFinal hw (by omega) hb hrem, finishWalk_of_walkInv hv hi]
    refine cutChunk_toNat hlo hrem fun j hj => ?_
    rw [crossChunk_getLsbD _ _ _ (by omega)]
    simp [show j < 8 by omega]

/-- With more than 8 bits left a step moves the cursor by 8 and keeps the invariant (R112, R113). -/
theorem walkStep_goesOn {start stopAt : Nat} {s : State} {w : Walk} (hv : Valid start stopAt s.buffer.len)
    (hi : WalkInv start stopAt s w) (hrem : 8 < spanWidth start w.cur) :
    walkStep start s = .next (advanceWalk w (crossChunk s.buffer w.cur) s) ∧
      WalkInv start stopAt (advanceWalk w (crossChunk s.buffer w.cur) s)
        { cur := w.cur - 8, k := w.k + 1, acc := accumulate w (crossChunk s.buffer w.cur) } := by
  obtain ⟨-, hwidth, hbound⟩ := hv
  obtain ⟨hw, hlo, hhi, hk, hacc⟩ := hi
  have hspan : spanWidth start w.cur = w.cur - start + 1 := rfl
  have hb : sameByte start w.cur = false := (sameByte_eq_false_iff _ _).2 (by omega)
  have hchunk : (crossChunk s.buffer w.cur).toNat = s.buffer.field (w.cur - 8 + 1) w.cur := by
    rw [crossChunk_toNat _ _ (by omega), show w.cur - 8 + 1 = w.cur - 7 by omega]
  exact ⟨walkStep_crossGoesOn hw (by omega) hb hrem, rfl, show start ≤ w.cur - 8 by omega,
    show w.cur - 8 ≤ stopAt by omega, show stopAt - (w.cur - 8) = 8 * (w.k + 1) by omega,
    accumulate_toNat_of_fields (lo := w.cur - 8 + 1) hacc hchunk (by omega) (by omega) (by omega)⟩

/-- Enough steps for the bits left end the walk with the field of the whole range (R121). -/
theorem runWalk_of_walkInv {start stopAt n : Nat} {s : State} {w : Walk} (hv : Valid start stopAt s.buffer.len)
    (hi : WalkInv start stopAt s w) (hn : spanWidth start w.cur ≤ 8 * n) :
    runWalk start n s = .next (respond (fieldResponse s.buffer start stopAt) s) := by
  induction n generalizing s w with
  | zero => simp [spanWidth] at hn
  | succ n ih =>
    by_cases hrem : spanWidth start w.cur ≤ 8
    · rw [runWalk_succ_of_next (walkStep_ends hv hi hrem), runWalk_idle _ _ _ (respond_walk _ _)]
    · obtain ⟨hstep, hinv⟩ := walkStep_goesOn hv hi (Nat.lt_of_not_le hrem)
      have hleft : spanWidth start (w.cur - 8) ≤ 8 * n := by unfold spanWidth at *; omega
      rw [runWalk_succ_of_next hstep, ih (s := advanceWalk w (crossChunk s.buffer w.cur) s) hv hinv hleft]
      rfl

end Sys2Proof.Machine
end

section
/-! PROOFS. Every request answers with its `answer`, from `exec` up to a host's transaction
(40_extract.md R80, R84; 70_reset_and_hazards.md R174). -/

namespace Sys2Proof.Machine

theorem answer_of_valid {b : Buffer} {start stopAt : Nat} (hv : Valid start stopAt b.len) :
    answer b start stopAt = fieldResponse b start stopAt := by
  rw [answer, check_of_valid hv]

theorem answer_of_check {b : Buffer} {start stopAt : Nat} {kind : ErrKind}
    (hc : check start stopAt b.len = some kind) : answer b start stopAt = .err kind := by
  rw [answer, hc]

/-- Only a valid request has a value (40_extract.md R84). -/
theorem valid_of_answer_ok {b : Buffer} {start stopAt : Nat} {v : Word} (h : answer b start stopAt = .ok v) :
    Valid start stopAt b.len := by
  cases hc : check start stopAt b.len with
  | none => exact (check_eq_none_iff _ _ _).1 hc
  | some kind => rw [answer_of_check hc] at h; cases h

/-- The next state of a valid request: the field as the response, and nothing else changed but the walk. -/
theorem execExtract_eq_of_valid {start stopAt : Nat} {s : State} (hv : Valid start stopAt s.buffer.len) :
    execExtract start stopAt s = .next (respond (fieldResponse s.buffer start stopAt) s) := by
  have ⟨hle, hwidth, _⟩ := hv
  have hsteps : spanWidth start stopAt ≤ 8 * Config.maxSteps := by unfold spanWidth Config.maxSteps; omega
  rw [execExtract_of_valid hv, runWalk_of_walkInv (s := beginWalk stopAt s) hv (walkInv_beginWalk s hle) hsteps]
  rfl

/-- EXTRACT completes in every state, with one response more and the rest as it was. -/
theorem execExtract_answers (start stopAt : Nat) (s : State) :
    ∃ t, execExtract start stopAt s = .next t ∧ t.buffer = s.buffer ∧ t.requests = s.requests ∧
      t.walk = none ∧ t.responses = s.responses ++ [answer s.buffer start stopAt] := by
  cases hc : check start stopAt s.buffer.len with
  | some kind => exact ⟨raise kind s, execExtract_of_check hc, rfl, rfl, rfl, by simp [answer_of_check hc]⟩
  | none =>
    have hv := (check_eq_none_iff _ _ _).1 hc
    exact ⟨_, execExtract_eq_of_valid hv, rfl, rfl, rfl, by simp [answer_of_valid hv]⟩

/-- A step is the meaning of the first request in line, taken with its buffer. -/
theorem step_of_requests_cons {s : State} {r : Request} {rest : List Request} (h : s.requests = r :: rest) :
    step s = exec (decode r.word) { s with requests := rest, buffer := r.buffer } := by
  rw [step, fetch_cons h]

/-- A step takes the first request in line and gives it its own response. -/
theorem step_answers {s : State} {r : Request} {rest : List Request} (h : s.requests = r :: rest) :
    ∃ t, step s = .next t ∧ t.buffer = r.buffer ∧ t.requests = rest ∧ t.walk = none ∧
      t.responses = s.responses ++ [answerOf r] := by
  cases hd : decode r.word with
  | extract start stopAt =>
    have hans : answerOf r = answer r.buffer start stopAt := by rw [answerOf, hd]
    rw [step_of_requests_cons h, hd, hans]
    exact execExtract_answers start stopAt { s with requests := rest, buffer := r.buffer }

/-- As many steps as requests are in line serve them all (R174). -/
theorem serve_answers_all (s : State) :
    ∃ t, serve s.requests.length s = .next t ∧ t.requests = [] ∧
      t.responses = s.responses ++ s.requests.map answerOf := by
  induction hq : s.requests generalizing s with
  | nil => exact ⟨s, rfl, hq, by simp⟩
  | cons r rest ih =>
    obtain ⟨t, hstep, -, hrest, -, hresp⟩ := step_answers hq
    obtain ⟨u, hserve, hnone, hall⟩ := ih t hrest
    exact ⟨u, by rw [List.length_cons, serve_succ_of_next hstep, hserve], hnone, by simp [hall, hresp]⟩

/-- A host that presents a request in any state reads the response of that request alone. -/
@[simp] theorem transact_fst (r : Request) (s : State) : (transact r s).1 = some (answerOf r) := by
  obtain ⟨t, hserve, -, hresp⟩ := serve_answers_all (present r s)
  have hlen : (present r s).requests.length = s.requests.length + 1 := by simp
  rw [hlen] at hserve
  simp [transact, hserve, hresp]

end Sys2Proof.Machine
end

section
/-! PROOFS. The statements about what EXTRACT returns (40_extract.md R81, R85, R87, R91, R93, R95). -/

namespace Sys2Proof.Machine

/-- The field of one bit is the bit. -/
theorem field_self (b : Buffer) (p : Nat) : b.field p p = b.bit p := by simp [Buffer.field]

theorem valid_singleBit {p len : Nat} (h : p < 8 * len) : Valid p p len := ⟨Nat.le_refl p, by omega, h⟩

/-- Settles O28: one bit is a valid range, and its field is the bit. -/
theorem singleBitExtraction : Obligations.SingleBitExtraction := by
  intro p s hp
  refine ⟨_, execExtract_eq_of_valid (valid_singleBit hp), ?_⟩
  rw [respond_responses, fieldResponse, field_self]

/-- Settles O10: `check` names the error, `SingleBitExtraction` gives the bit, and a value is the `answer`
of a valid request only. -/
theorem firstCheckRaisesInvalidRange : Obligations.FirstCheckRaisesInvalidRange := by
  refine ⟨fun start stopAt s hgt => ?_, fun p s hp => ?_, fun start stopAt s t v hexec hval => ?_⟩
  · have hc : check start stopAt s.buffer.len = some .invalidRange := if_pos hgt
    exact ⟨_, execExtract_of_check hc, raise_responses _ _⟩
  · obtain ⟨t, hexec, hresp⟩ := singleBitExtraction p s hp
    exact ⟨t, _, hexec, hresp, lt_of_le_of_lt (Nat.mod_le _ _) (bit_lt_two s.buffer p)⟩
  · obtain ⟨u, hu, -, -, -, hresp⟩ := execExtract_answers start stopAt s
    obtain rfl : u = t := Host.Outcome.next.inj (hu.symm.trans hexec)
    have hans : answer s.buffer start stopAt = .ok v := by simpa [hresp] using hval
    exact (valid_of_answer_ok hans).1

/-- Bit `j` of the value of a valid request, for every place of the 32 (40_extract.md R85, R87). -/
theorem fieldValue_getLsbD (b : Buffer) (start stopAt j : Nat) (hj : j < 32) :
    (BitVec.ofNat 32 (b.field start stopAt)).getLsbD j =
      (decide (start + j ≤ stopAt) && decide (b.bit (stopAt - j) = 1)) := by
  rw [BitVec.getLsbD_ofNat, field_testBit]
  simp [hj]

/-- Settles O26: the value is the field read bit by bit, and no request leaves anything from which
another's response could differ (`transact_fst`). -/
theorem extractReturnsTheBitsOfTheRange : Obligations.ExtractReturnsTheBitsOfTheRange := by
  refine ⟨fun start stopAt s hv => ?_, fun start stopAt s => ?_⟩
  · have ⟨hle, hwidth, _⟩ := hv
    have hval := field_toNat s.buffer start stopAt hwidth
    refine ⟨_, execExtract_eq_of_valid hv, hval, fun j hj => ?_, fun j hj hj32 => ?_, ?_⟩
    · have hin : start + j ≤ stopAt := by omega
      have hbit := bit_lt_two s.buffer (stopAt - j)
      rw [fieldValue_getLsbD _ _ _ _ (by omega)]
      interval_cases s.buffer.bit (stopAt - j) <;> simp [hin]
    · have hout : ¬ start + j ≤ stopAt := by omega
      simp [fieldValue_getLsbD _ _ _ _ hj32, hout]
    · rw [hval]; exact field_lt _ _ _ _ (by omega)
  · obtain ⟨t, hexec, hbuf, hreq, hwalk, hresp⟩ := execExtract_answers start stopAt s
    exact ⟨t, _, hexec, hbuf, fun a => by rw [hbuf], hreq, hwalk, hresp, fun other => by simp⟩

/-- Settles O50: each response named is `answerOf` the request, by `transact_fst`. -/
theorem repeatedRequestGivesTheSameResponse : Obligations.RepeatedRequestGivesTheSameResponse := by
  intro r other s s'
  simp only [transact_fst, true_and]
  exact ⟨_, rfl⟩

end Sys2Proof.Machine
end

section
/-! PROOFS. The start of the walk and the byte-boundary test (41_chunk_datapath.md R105, R108). -/

namespace Sys2Proof.Machine

/-- Settles O34: what `beginWalk` writes and leaves is said by its state laws, and `execExtract_of_valid`
hands a valid request to the walk. -/
theorem walkStartsAtEnd : Obligations.WalkStartsAtEnd :=
  ⟨fun stopAt s => ⟨beginWalk_walk stopAt s, beginWalk_buffer stopAt s, beginWalk_requests stopAt s,
      beginWalk_responses stopAt s⟩,
    fun _ _ _ hv => execExtract_of_valid hv,
    fun s => beginWalk_walk 29 s⟩

theorem validBits_le_eight (p : Nat) : validBits p ≤ 8 := by
  unfold validBits inByte; omega

/-- In the byte of `start` the bits left lie inside that byte (R108). -/
theorem spanWidth_le_validBits {start cur : Nat} (hle : start ≤ cur) (hbyte : cur / 8 = start / 8) :
    spanWidth start cur ≤ validBits cur := by
  unfold spanWidth validBits inByte; omega

/-- In a later byte than that of `start` some bits left lie before that byte (R108). -/
theorem validBits_lt_spanWidth {start cur : Nat} (hbyte : start / 8 < cur / 8) :
    validBits cur < spanWidth start cur := by
  unfold spanWidth validBits inByte; omega

/-- From `start` on, the cursor is in the byte of `start` or in a later one (R108). -/
theorem sameByte_eq_false_iff_lt {start cur : Nat} (hle : start ≤ cur) :
    sameByte start cur = false ↔ start / 8 < cur / 8 := by
  have hbytes : start / 8 ≤ cur / 8 := Nat.div_le_div_right hle
  rw [sameByte_eq_false_iff]
  omega

/-- Settles O35: the test compares byte indices, and the two bounds on the bits left follow from which of
the two answers it gives. -/
theorem byteBoundaryTest : Obligations.ByteBoundaryTest := by
  refine ⟨fun start cur hle => ⟨sameByte_iff start cur, sameByte_eq_false_iff_lt hle, fun hsame => ?_,
    fun hcross => ?_⟩, by decide, by decide⟩
  · exact ⟨spanWidth_le_validBits hle ((sameByte_iff _ _).1 hsame), validBits_le_eight cur⟩
  · have hbyte := (sameByte_eq_false_iff_lt hle).1 hcross
    exact ⟨by omega, validBits_lt_spanWidth hbyte⟩

end Sys2Proof.Machine
end

section
/-! PROOFS. The two chunk steps with an exact next state: the one within a byte, and the one across
bytes that goes on (41_chunk_datapath.md R109, R113). -/

namespace Sys2Proof.Machine

/-- Cut to no more bits than `low` has, `low` is the shifted byte cut to them: its own mask is the wider
of the two (R109). -/
theorem lowPart_and_mask8 (byte : Byte) {vbs n : Nat} (hn : n ≤ vbs) :
    lowPart byte vbs &&& mask8 n = (byte >>> (8 - vbs)) &&& mask8 n := by
  apply BitVec.eq_of_getLsbD_eq
  intro j _
  simp only [lowPart, BitVec.getLsbD_and, mask8_getLsbD]
  by_cases hj : j < n
  · simp [hj, lt_of_lt_of_le hj hn]
  · simp [hj]

/-- The chunk of a same-byte step is the field from `start` to the cursor (R109). -/
theorem sameByteChunk_toNat (b : Buffer) {start cur : Nat} (hle : start ≤ cur) (hbyte : cur / 8 = start / 8) :
    (lowPart (b.byteAt (byteIndex cur)) (validBits cur) &&& mask8 (spanWidth start cur)).toNat =
      b.field start cur := by
  have hrem := spanWidth_le_validBits hle hbyte
  refine cutChunk_toNat hle (hrem.trans (validBits_le_eight cur)) fun j hj => ?_
  rw [lowPart_byteAt_getLsbD]
  simp [lt_of_lt_of_le hj hrem]

/-- Settles O37: `walkStep_sameByte` gives the next state, and its chunk is read once as a shifted byte
(`lowPart_and_mask8`) and once as buffer bits (`sameByteChunk_toNat`). -/
theorem sameByteStepEndsTheWalk : Obligations.SameByteStepEndsTheWalk := by
  intro start s w hw hle hbound hbyte
  have hfield := sameByteChunk_toNat s.buffer hle hbyte
  refine ⟨_, walkStep_sameByte hw (by omega) ((sameByte_iff _ _).2 hbyte), ?_, hfield, ?_⟩
  · have hshift : 8 - validBits w.cur = 7 - w.cur % 8 := by unfold validBits inByte; omega
    rw [lowPart_and_mask8 _ (spanWidth_le_validBits hle hbyte), and_mask8_toNat, BitVec.toNat_ushiftRight, hshift]
    rfl
  · rw [hfield]
    exact field_lt _ _ _ _ (by omega)

/-- Settles O39: `walkStep_crossGoesOn` gives the next state, and eight of more than eight bits left leave
at least one. -/
theorem crossByteStepMovesTheCursorByEight : Obligations.CrossByteStepMovesTheCursorByEight := by
  intro start s w hw hbound hbyte hrem
  have hcross : sameByte start w.cur = false := (sameByte_eq_false_iff _ _).2 (by omega)
  refine ⟨⟨_, walkStep_crossGoesOn hw (by omega) hcross hrem, rfl, rfl, rfl⟩, ?_⟩
  unfold spanWidth at *
  omega

end Sys2Proof.Machine
end

section
/-! PROOFS. Errors: raised by the checks alone, with nothing read, changed or left behind, in any
interleaving of hosts (60_exceptions.md R135, R139, R141, R144). -/

namespace Sys2Proof.Machine

/-- The error of an invalid request is fixed by `start`, `end` and `len`, and raising it is all the
request does (R135, R138). -/
theorem exec_of_not_valid {start stopAt len : Nat} (hv : ¬ Valid start stopAt len) :
    ∃ kind, ∀ s : State, s.buffer.len = len → exec (.extract start stopAt) s = .next (raise kind s) := by
  cases hc : check start stopAt len with
  | none => exact absurd ((check_eq_none_iff _ _ _).1 hc) hv
  | some kind => exact ⟨kind, fun s hlen => execExtract_of_check (hlen ▸ hc)⟩

/-- A chunk step that gives a response gives a value and ends the walk (R114). -/
theorem walkStep_responses {start : Nat} {s t : State} (h : walkStep start s = .next t) :
    t.responses = s.responses ∨ (t.walk = none ∧ ∃ v, t.responses = s.responses ++ [.ok v]) := by
  obtain ⟨-, rfl⟩ | ⟨w, -, -, ⟨-, rfl⟩ | ⟨-, -, rfl⟩ | ⟨-, -, rfl⟩⟩ := walkStep_next_cases h
  · exact .inl rfl
  · exact .inr ⟨rfl, _, rfl⟩
  · exact .inr ⟨rfl, _, rfl⟩
  · exact .inl rfl

/-- However many chunk steps run, they give no response or one value: the step that gives it ends the
walk, and the stages after it are idle (R135). -/
theorem runWalk_responses {start n : Nat} {s t : State} (h : runWalk start n s = .next t) :
    t.responses = s.responses ∨ ∃ v, t.responses = s.responses ++ [.ok v] := by
  induction n generalizing s with
  | zero => cases h; exact .inl rfl
  | succ n ih =>
    obtain ⟨u, hstep, hrest⟩ := runWalk_succ_next h
    obtain hsame | ⟨hend, hval⟩ := walkStep_responses hstep
    · rw [← hsame]; exact ih hrest
    · rw [runWalk_idle _ _ _ hend] at hrest
      cases hrest
      exact .inr hval

/-- Settles O15: the checks raise every error before the walk (`exec_of_not_valid`), and the walk gives
values only (`runWalk_responses`). -/
theorem errorsComeBeforeAnyByteIsRead : Obligations.ErrorsComeBeforeAnyByteIsRead :=
  ⟨fun _ _ _ hv => exec_of_not_valid hv, fun _ _ _ _ hrun => runWalk_responses hrun⟩

/-- Settles O16: the request raises its error and nothing more, on every buffer of that length
(`exec_of_not_valid`), and the state laws say what `raise` leaves. -/
theorem failingRequestDeliversAndChangesNothing : Obligations.FailingRequestDeliversAndChangesNothing := by
  intro start stopAt s hv
  obtain ⟨kind, hraise⟩ := exec_of_not_valid hv
  exact ⟨raise kind s, kind, hraise s rfl, raise_responses kind s, raise_walk kind s, raise_buffer kind s,
    raise_requests kind s, fun a => by rw [raise_buffer],
    fun s' hlen => ⟨raise kind s', hraise s' hlen, raise_responses kind s'⟩⟩

/-- Settles O51: before and after the failing request each response is `answerOf` its own request
(`transact_fst`). -/
theorem errorLeavesNoTrace : Obligations.ErrorLeavesNoTrace := by
  intro failing r s kind herr
  have hsame (q : Request) : (transact q (transact failing s).2).1 = (transact q s).1 := by
    rw [transact_fst, transact_fst]
  exact ⟨hsame r, (hsame failing).trans herr⟩

/-- Settles O52, by induction on the session: the first response is `answerOf` its request
(`transact_fst`), whatever state it leaves to the rest. -/
theorem sessionAnswersEachRequestAlone : Obligations.SessionAnswersEachRequestAlone := by
  intro requests
  induction requests with
  | nil => intro s; rfl
  | cons r rest ih => intro s; rw [session, transact_fst, ih, List.map_cons]

end Sys2Proof.Machine
end

section
/-! PROOFS. The chunk step by the walk invariant, and the walk of a valid request step by step
(41_chunk_datapath.md R112, R118, R121). -/

namespace Sys2Proof.Machine

/-- Settles O43: with at most 8 bits left the step ends the walk (`walkStep_ends`), with more it goes on
under the invariant (`walkStep_goesOn`). -/
theorem chunkStepKeepsTheWalkInvariant : Obligations.ChunkStepKeepsTheWalkInvariant := by
  intro start stopAt s w hv hi
  by_cases hrem : spanWidth start w.cur ≤ 8
  · exact ⟨_, walkStep_ends hv hi hrem, rfl, rfl, .inr ⟨rfl, rfl⟩⟩
  · obtain ⟨hstep, hinv⟩ := walkStep_goesOn hv hi (Nat.lt_of_not_le hrem)
    have ⟨_, _, _, hk, _⟩ := hi
    have hspan : spanWidth start w.cur = w.cur - start + 1 := rfl
    exact ⟨_, hstep, rfl, rfl, .inl ⟨_, hinv, show w.cur - 8 + 8 = w.cur by omega,
      show (w.cur - 8) % 8 = stopAt % 8 by omega, rfl⟩⟩

/-- While bits are left, `j` chunk steps have written the walk variables and nothing else. -/
theorem runWalk_of_lt {start stopAt j : Nat} {s : State} (hv : Valid start stopAt s.buffer.len)
    (hj : 8 * j < spanWidth start stopAt) :
    ∃ w : Walk, runWalk start j (beginWalk stopAt s) = .next { s with walk := some w } ∧
      WalkInv start stopAt { s with walk := some w } w ∧ w.cur = stopAt - 8 * j ∧ w.k = j := by
  have ⟨hle, _, _⟩ := hv
  induction j with
  | zero => exact ⟨_, rfl, walkInv_beginWalk s hle, rfl, rfl⟩
  | succ j ih =>
    specialize ih (by omega)
    obtain ⟨w, hrun, hi, hcur, hk⟩ := ih
    have hrem : 8 < spanWidth start w.cur := by unfold spanWidth at hj ⊢; omega
    have hcur' : w.cur - 8 = stopAt - 8 * (j + 1) := by omega
    obtain ⟨hstep, hinv⟩ := walkStep_goesOn (s := { s with walk := some w }) hv hi hrem
    refine ⟨_, ?_, hinv, hcur', congrArg (· + 1) hk⟩
    rw [runWalk_add_of_next hrun, runWalk_succ_of_next hstep]
    rfl

/-- Settles O44: `runWalk_of_lt` before the last step, `runWalk_of_walkInv` from it on. -/
theorem walkTakesOneStepForEachByteOfTheResult : Obligations.WalkTakesOneStepForEachByteOfTheResult := by
  intro start stopAt s hv
  have ⟨hle, hwidth, _⟩ := hv
  refine ⟨by omega, by omega, fun j hj => ?_, fun j hj => ?_⟩
  · obtain ⟨w, hrun, hi, hcur, hk⟩ := runWalk_of_lt hv (j := j) (by unfold spanWidth; omega)
    obtain ⟨-, -, -, -, hacc⟩ := hi
    exact ⟨w, hrun, hcur, hk, hcur ▸ hacc⟩
  · have hsteps : spanWidth start stopAt ≤ 8 * j := by unfold spanWidth; omega
    rw [runWalk_of_walkInv (s := beginWalk stopAt s) hv (walkInv_beginWalk s hle) hsteps]
    rfl

end Sys2Proof.Machine
end

section
/-! PROOFS. What a step can do, and what every step, presentation, collection and reset keeps
(10_state.md R25, 70_reset_and_hazards.md R160 to R162, R174, R175). -/

namespace Sys2Proof.Machine

theorem step_idle {s : State} (h : s.requests = []) : step s = .next s := by
  rw [step, fetch_nil h]

/-- All a step can do: nothing on an idle block, else serve the request first in line. -/
theorem step_next_cases {s t : State} (h : step s = .next t) :
    (s.requests = [] ∧ t = s) ∨
    ∃ r rest, s.requests = r :: rest ∧ t.buffer = r.buffer ∧ t.requests = rest ∧ t.walk = none ∧
      t.responses = s.responses ++ [answerOf r] := by
  cases hq : s.requests with
  | nil => rw [step_idle hq] at h; cases h; exact .inl ⟨rfl, rfl⟩
  | cons r rest =>
    obtain ⟨u, hstep, hserved⟩ := step_answers hq
    obtain rfl : u = t := Host.Outcome.next.inj (hstep.symm.trans h)
    exact .inr ⟨r, rest, rfl, hserved⟩

theorem step_completes (s : State) : Completes (step s) := by
  cases hq : s.requests with
  | nil => exact ⟨s, step_idle hq⟩
  | cons r rest =>
    obtain ⟨t, hstep, -⟩ := step_answers hq
    exact ⟨t, hstep⟩

/-- Settles O53: the buffer on the input after a step is one that waited, and the walk is gone. -/
theorem stepKeepsTheInvariant : Obligations.StepKeepsTheInvariant := by
  intro s t ⟨hbuf, hreqs, hwalk⟩ hstep
  obtain ⟨-, rfl⟩ | ⟨r, rest, hq, hbuf', hrest, hwalk', -⟩ := step_next_cases hstep
  · exact ⟨hbuf, hreqs, hwalk⟩
  · refine ⟨hbuf' ▸ hreqs r (by simp [hq]), fun x hx => hreqs x ?_, hwalk'⟩
    rw [hq, ← hrest]
    exact List.mem_cons_of_mem _ hx

/-! ### The accounts -/

/-- A step moves one response from the requests in line to those pending and changes none. -/
theorem owed_step {s t : State} (h : step s = .next t) : t.owed = s.owed := by
  obtain ⟨-, rfl⟩ | ⟨r, rest, hq, -, hrest, -, hresp⟩ := step_next_cases h
  · rfl
  · simp [State.owed, hq, hrest, hresp]

/-- A collection hands over the first response owed, if it is pending. -/
theorem collectResponse_owed (s : State) :
    (collectResponse s).1.toList ++ (collectResponse s).2.owed = s.owed := by
  cases hresp : s.responses <;> simp [State.owed, hresp]

@[simp] theorem owed_resetBlock (s : State) : (resetBlock s).owed = [] := rfl

/-- Settles O55: what each action does to the responses owed is said by the three lemmas above and
`owed_present`. -/
theorem everyActionKeepsTheAccounts : Obligations.EveryActionKeepsTheAccounts := by
  intro asked taken s h
  unfold Accounted at *
  refine ⟨fun t hstep => ?_, fun r => ?_, ?_, by simp⟩
  · rw [owed_step hstep, h]
  · rw [owed_present, ← List.append_assoc, h, List.map_append, List.map_singleton]
  · rw [List.append_assoc, collectResponse_owed, h]

end Sys2Proof.Machine
end

section
/-! PROOFS. Request words: the format REQ in arithmetic, and its decoder and encoder
(30_encoding.md R61, R65, R67, R68). -/

namespace Sys2Proof

theorem slice_upperHalf {posw : Nat} (w : Nat) (h : 1 ≤ posw) :
    slice w (2 * posw - 1) posw = w / 2 ^ posw % 2 ^ posw := by
  rw [slice_eq_mod, show 2 * posw - 1 - posw + 1 = posw by omega]

theorem slice_lowerHalf {posw : Nat} (w : Nat) (h : 1 ≤ posw) : slice w (posw - 1) 0 = w % 2 ^ posw := by
  rw [slice_eq_mod, show posw - 1 - 0 + 1 = posw by omega, pow_zero, Nat.div_one]

/-- The decoder in arithmetic: the quotient and the remainder of the word. -/
theorem decodeAt_eq {posw : Nat} (w : Nat) (h : 1 ≤ posw) :
    decodeAt posw w = .extract (w / 2 ^ posw % 2 ^ posw) (w % 2 ^ posw) := by
  rw [decodeAt, slice_upperHalf w h, slice_lowerHalf w h]

theorem fits_extract_iff (posw start stopAt : Nat) :
    (Instr.extract start stopAt).fits posw = true ↔ start < 2 ^ posw ∧ stopAt < 2 ^ posw := by
  simp [Instr.fits]

theorem encodeAt_lt {posw : Nat} {i : Instr} (h : i.fits posw = true) : encodeAt posw i < 2 ^ (2 * posw) := by
  cases i with
  | extract start stopAt => exact Laws.EncodingFits.extract start stopAt posw h

theorem decodeAt_encodeAt {posw : Nat} {i : Instr} (hp : 1 ≤ posw) (h : i.fits posw = true) :
    decodeAt posw (encodeAt posw i) = i := by
  cases i with
  | extract start stopAt =>
    obtain ⟨hstart, hstop⟩ := (fits_extract_iff _ _ _).1 h
    have hhigh : (start * 2 ^ posw + stopAt) / 2 ^ posw = start := by
      rw [Nat.add_comm, Nat.add_mul_div_right _ _ (Nat.two_pow_pos posw), Nat.div_eq_of_lt hstop, Nat.zero_add]
    rw [decodeAt_eq _ hp, encodeAt, cat_eq_add _ _ _ hstop, hhigh, Nat.mod_eq_of_lt hstart,
      Nat.mul_add_mod', Nat.mod_eq_of_lt hstop]

theorem decodeAt_fits {posw : Nat} (w : Nat) (hp : 1 ≤ posw) : (decodeAt posw w).fits posw = true := by
  rw [decodeAt_eq w hp, fits_extract_iff]
  exact ⟨Nat.mod_lt _ (Nat.two_pow_pos posw), Nat.mod_lt _ (Nat.two_pow_pos posw)⟩

theorem encodeAt_decodeAt {posw w : Nat} (hp : 1 ≤ posw) (hw : w < 2 ^ (2 * posw)) :
    encodeAt posw (decodeAt posw w) = w := by
  have hhigh : w / 2 ^ posw < 2 ^ posw := by
    rw [Nat.div_lt_iff_lt_mul (Nat.two_pow_pos posw), ← Nat.pow_add, ← two_mul]
    exact hw
  rw [decodeAt_eq w hp, encodeAt, cat_eq_add _ _ _ (Nat.mod_lt _ (Nat.two_pow_pos posw)),
    Nat.mod_eq_of_lt hhigh, Nat.div_add_mod']

/-- The reference instantiation: a well-formed instruction is what its word decodes to. -/
theorem decode_encode {i : Instr} (h : i.wellFormed = true) : decode (encode i) = i := by
  have hlt : encodeAt Config.posw i < 2 ^ 64 := encodeAt_lt h
  rw [decode, encode, BitVec.toNat_ofNat, Nat.mod_eq_of_lt hlt]
  exact decodeAt_encodeAt (by decide) h

theorem encode_decode (w : ReqWord) : encode (decode w) = w := by
  rw [encode, decode, encodeAt_decodeAt (by decide) w.isLt, BitVec.ofNat_toNat, BitVec.setWidth_eq]

/-- Settles O6: the word is `start * 2 ^ POSW + end`, and the decoder takes quotient and remainder
(`decodeAt_eq`). -/
theorem decodeAndEncodeAreInverse : Obligations.DecodeAndEncodeAreInverse :=
  ⟨fun _ _ hp h => ⟨encodeAt_lt h, decodeAt_encodeAt hp h⟩,
    fun _ w hp hw => ⟨decodeAt_fits w hp, encodeAt_decodeAt hp hw⟩,
    fun _ h => decode_encode h,
    fun w => ⟨decodeAt_fits w.toNat (by decide), encode_decode w⟩⟩

/-- Settles O7: both sides are the slices of the word's number. -/
theorem operandsAreTheHalvesOfTheWord : Obligations.OperandsAreTheHalvesOfTheWord := by
  intro w
  rw [decode, decodeAt_eq _ (by decide), BitVec.extractLsb'_toNat, BitVec.extractLsb'_toNat,
    Nat.shiftRight_eq_div_pow, Nat.shiftRight_zero]

/-- Settles O5: the four words are evaluated. -/
theorem requestWordsOfTheSpecDecode : Obligations.RequestWordsOfTheSpecDecode := by
  refine ⟨?_, ?_, ?_, ?_⟩ <;> decide

/-- The table decoder at the 64 bits of the reference instantiation (log 1, 12). -/
theorem decodeBits_eq (nbits w : Nat) :
    decodeBits nbits w =
      if 64 < nbits then .error .widerThanRequest
      else if 2 ^ nbits ≤ w then .error .valueOutsideWidth
      else .ok (decode (BitVec.ofNat 64 w)) := rfl

theorem decodeBits_of_lt {nbits w : Nat} (hn : nbits ≤ 64) (hw : w < 2 ^ nbits) :
    decodeBits nbits w = .ok (decode (BitVec.ofNat 64 w)) := by
  rw [decodeBits_eq, if_neg (Nat.not_lt.2 hn), if_neg (Nat.not_le.2 hw)]

theorem decodeBits_of_ge {nbits w : Nat} (hn : nbits ≤ 64) (hw : 2 ^ nbits ≤ w) :
    decodeBits nbits w = .error .valueOutsideWidth := by
  rw [decodeBits_eq, if_neg (Nat.not_lt.2 hn), if_pos hw]

theorem decodeBits_of_wide {nbits : Nat} (w : Nat) (hn : 64 < nbits) :
    decodeBits nbits w = .error .widerThanRequest := by
  rw [decodeBits_eq, if_pos hn]

/-- Settles O8: the three answers of `decodeBits`. -/
theorem tableWordsDecodeOrAreRefusedByName : Obligations.TableWordsDecodeOrAreRefusedByName :=
  fun _ w => ⟨decodeBits_of_lt, decodeBits_of_ge, decodeBits_of_wide w⟩

/-- A table word that decodes fits its width of at most 64 bits. -/
theorem decodeTableWord_eq_some {nbits w : Nat} {i : Instr} (h : decodeTableWord nbits w = some i) :
    w < 2 ^ nbits ∧ decode (BitVec.ofNat 64 w) = i := by
  rcases Nat.lt_or_ge 64 nbits with hwide | hn
  · simp [decodeTableWord, decodeBits_of_wide w hwide] at h
  · rcases Nat.lt_or_ge w (2 ^ nbits) with hw | hw
    · rw [decodeTableWord, decodeBits_of_lt hn hw] at h
      exact ⟨hw, Option.some.inj h⟩
    · simp [decodeTableWord, decodeBits_of_ge hn hw] at h

end Sys2Proof

namespace Sys2Proof.Machine

/-- A request word placed first in line is what the next step runs, on the buffer that is there. -/
theorem step_presentWordFirst (w : ReqWord) (s : State) : step (presentWordFirst w s) = exec (decode w) s := by
  have htaken : { presentWordFirst w s with requests := s.requests, buffer := s.buffer } = s := rfl
  rw [step_of_requests_cons (presentWordFirst_requests w s), htaken]

/-- Settles O9: `step_of_requests_cons` for the request first in line, with `decode_encode` for the word of
an instruction, and `step_presentWordFirst` for a table word. -/
theorem stepRunsTheDecodedRequest : Obligations.StepRunsTheDecodedRequest := by
  refine ⟨fun s r rest hq => step_of_requests_cons hq, fun s i r rest hi hq hword => ?_,
    fun s nbits w i htable => ?_⟩
  · rw [step_of_requests_cons hq, hword, decode_encode hi]
  · obtain ⟨hw, rfl⟩ := decodeTableWord_eq_some htable
    rw [State.withFetchWord, Nat.mod_eq_of_lt hw, step_presentWordFirst]

/-- Settles O18: shifting by 3 divides by 8, and the quotient fits the slice. -/
theorem positionFieldsAreBitSlices : Obligations.PositionFieldsAreBitSlices := by
  intro posw p hposw hp
  have hfit : p / 2 ^ 3 < 2 ^ (posw - 1 - 3 + 1) := by
    rw [Nat.div_lt_iff_lt_mul (Nat.two_pow_pos 3), ← Nat.pow_add, show posw - 1 - 3 + 1 + 3 = posw by omega]
    exact hp
  constructor
  · rw [slice_eq_mod, Nat.mod_eq_of_lt hfit]; rfl
  · rw [slice_eq_mod, pow_zero, Nat.div_one]; rfl

end Sys2Proof.Machine
end

section
/-! PROOFS. Reset, reachable states, and every request served
(70_reset_and_hazards.md R160 to R162, R174, R175; 60_exceptions.md R144). -/

namespace Sys2Proof.Machine

theorem presentable_reset : Presentable State.reset.buffer := ⟨reset_buffer_wf, by decide⟩

theorem inv_reset : State.reset.Inv := ⟨presentable_reset, by simp [State.reset], rfl⟩

/-- Settles O1: the fields of `State.reset`, and its empty buffer is canonical (`reset_buffer_wf`). -/
theorem resetStateIsIdleAndInvariant : Obligations.ResetStateIsIdleAndInvariant :=
  ⟨rfl, rfl, rfl, rfl, inv_reset⟩

/-- Settles O4: with no request in line there is nothing to fetch. -/
theorem idleBlockStaysAsItIs : Obligations.IdleBlockStaysAsItIs := fun _ h => step_idle h

/-- Settles O2: the state laws of `resetBlock`, and the idle step after it. -/
theorem resetDropsTheTransactionAndSparesTheBuffer : Obligations.ResetDropsTheTransactionAndSparesTheBuffer :=
  fun s => ⟨resetBlock_requests s, resetBlock_walk s, resetBlock_responses s, resetBlock_buffer s,
    fun a => by rw [resetBlock_buffer], step_idle (resetBlock_requests s)⟩

/-- Settles O3: both responses are `answerOf` the request (`transact_fst`). -/
theorem firstRequestAfterResetIsServedAlike : Obligations.FirstRequestAfterResetIsServedAlike := by
  intro r s
  rw [transact_fst, transact_fst]

theorem inv_present {r : Request} {s : State} (hs : s.Inv) (hr : Presentable r.buffer) : (present r s).Inv := by
  obtain ⟨hbuf, hreqs, hwalk⟩ := hs
  refine ⟨hbuf, fun x hx => ?_, hwalk⟩
  rw [present_requests, List.mem_append, List.mem_singleton] at hx
  obtain hx | rfl := hx
  · exact hreqs x hx
  · exact hr

theorem inv_collectResponse {s : State} (hs : s.Inv) : (collectResponse s).2.Inv := hs

theorem inv_resetBlock {s : State} (hs : s.Inv) : (resetBlock s).Inv := ⟨hs.1, by simp, rfl⟩

theorem inv_of_reachable {asked : List Request} {taken : List Response} {s : State}
    (h : Reachable asked taken s) : s.Inv := by
  induction h with
  | reset => exact inv_reset
  | present _ _ _ _ _ hr ih => exact inv_present ih hr
  | step _ _ s t _ hstep ih => exact stepKeepsTheInvariant s t ih hstep
  | collect _ _ _ _ ih => exact inv_collectResponse ih
  | resetBlock _ _ _ _ ih => exact inv_resetBlock ih

/-- Settles O54: the invariant by induction over the way the state was reached, and every step completes. -/
theorem reachableStatesAreInvariantAndLive : Obligations.ReachableStatesAreInvariantAndLive :=
  fun _ _ s h => ⟨inv_of_reachable h, step_completes s⟩

theorem accounted_of_reachable {asked : List Request} {taken : List Response} {s : State}
    (h : Reachable asked taken s) : Accounted asked taken s := by
  induction h with
  | reset => rfl
  | present asked taken s r _ _ ih =>
    obtain ⟨-, hpresent, -, -⟩ := everyActionKeepsTheAccounts asked taken s ih
    exact hpresent r
  | step asked taken s t _ hstep ih =>
    obtain ⟨hkeeps, -, -, -⟩ := everyActionKeepsTheAccounts asked taken s ih
    exact hkeeps t hstep
  | collect asked taken s _ ih =>
    obtain ⟨-, -, hcollect, -⟩ := everyActionKeepsTheAccounts asked taken s ih
    exact hcollect
  | resetBlock asked taken s _ ih =>
    obtain ⟨-, -, -, hreset⟩ := everyActionKeepsTheAccounts asked taken s ih
    exact hreset

/-- Settles O56: the accounts hold after reset and every action keeps them. -/
theorem eachRequestGetsExactlyOneResponse : Obligations.EachRequestGetsExactlyOneResponse :=
  fun _ _ _ h => accounted_of_reachable h

/-- Settles O57: `serve_answers_all`, on the state itself and on the longer line, and one step of it
(`step_answers`). -/
theorem waitingRequestsAreAllServed : Obligations.WaitingRequestsAreAllServed := by
  refine ⟨serve_answers_all, fun requests s => ?_, fun s r rest hq => ?_⟩
  · obtain ⟨t, hserve, hnone, hresp⟩ := serve_answers_all (presentAll requests s)
    rw [presentAll_requests, List.length_append] at hserve
    exact ⟨t, hserve, hnone, by simp [hresp]⟩
  · obtain ⟨t, hstep, -, hrest, -, hresp⟩ := step_answers hq
    exact ⟨t, hstep, hrest, hresp⟩

end Sys2Proof.Machine
end

section
/-! PROOFS. The checks and which error a request reports (40_extract.md R81 to R84, 60_exceptions.md
R136, 70_reset_and_hazards.md R172). -/

namespace Sys2Proof.Machine

/-! ### When a check fails with which error -/

theorem check_eq_invalidRange_iff (start stopAt len : Nat) :
    check start stopAt len = some .invalidRange ↔ start > stopAt := by
  rw [check_eq]
  split_ifs <;> simp <;> omega

theorem check_eq_widthExceeded_iff (start stopAt len : Nat) :
    check start stopAt len = some .widthExceeded ↔ start ≤ stopAt ∧ stopAt - start + 1 > 32 := by
  rw [check_eq]
  split_ifs <;> simp <;> omega

theorem check_eq_outOfBounds_iff (start stopAt len : Nat) :
    check start stopAt len = some .outOfBounds ↔
      start ≤ stopAt ∧ stopAt - start + 1 ≤ 32 ∧ stopAt ≥ 8 * len := by
  rw [check_eq]
  split_ifs <;> simp <;> omega

theorem answer_eq_err_iff {b : Buffer} {start stopAt : Nat} {kind : ErrKind} :
    answer b start stopAt = .err kind ↔ check start stopAt b.len = some kind := by
  cases hc : check start stopAt b.len with
  | some kind' => simp [answer_of_check hc]
  | none => simp [answer_of_valid ((check_eq_none_iff _ _ _).1 hc), fieldResponse]

theorem answer_eq_ok_iff {b : Buffer} {start stopAt : Nat} :
    (∃ v, answer b start stopAt = .ok v) ↔ Valid start stopAt b.len :=
  ⟨fun ⟨_, hok⟩ => valid_of_answer_ok hok, fun hv => ⟨_, answer_of_valid hv⟩⟩

/-- The whole operation as one chain of comparisons (40_extract.md R80). -/
theorem answer_eq (b : Buffer) (start stopAt : Nat) :
    answer b start stopAt =
      if start > stopAt then .err .invalidRange
      else if stopAt - start + 1 > 32 then .err .widthExceeded
      else if stopAt ≥ 8 * b.len then .err .outOfBounds
      else fieldResponse b start stopAt := by
  rw [answer, check_eq]
  split_ifs <;> rfl

/-- The only response EXTRACT adds is the `answer`. -/
theorem exec_responses {start stopAt : Nat} {s t : State} (h : exec (.extract start stopAt) s = .next t) :
    t.responses = s.responses ++ [answer s.buffer start stopAt] := by
  obtain ⟨u, hexec, -, -, -, hresp⟩ := execExtract_answers start stopAt s
  obtain rfl : u = t := Host.Outcome.next.inj (hexec.symm.trans h)
  exact hresp

/-- A request whose check fails is answered with that error. -/
theorem exec_of_check {start stopAt : Nat} {s : State} {kind : ErrKind}
    (hc : check start stopAt s.buffer.len = some kind) :
    ∃ t, exec (.extract start stopAt) s = .next t ∧ t.responses = s.responses ++ [.err kind] :=
  ⟨raise kind s, execExtract_of_check hc, raise_responses kind s⟩

/-- A valid request is answered with the field of its range. -/
theorem exec_of_valid {start stopAt : Nat} {s : State} (hv : Valid start stopAt s.buffer.len) :
    ∃ t, exec (.extract start stopAt) s = .next t ∧
      t.responses = s.responses ++ [fieldResponse s.buffer start stopAt] :=
  ⟨_, execExtract_eq_of_valid hv, respond_responses _ s⟩

/-! ### The statements -/

/-- Settles O11: the second check fails. -/
theorem secondCheckRaisesWidthExceeded : Obligations.SecondCheckRaisesWidthExceeded :=
  fun _ _ _ hle hwidth => exec_of_check ((check_eq_widthExceeded_iff _ _ _).2 ⟨hle, by omega⟩)

/-- Settles O12: the third check fails at `8 len`, on an empty buffer always, and passes the last bit. -/
theorem thirdCheckRaisesOutOfBounds : Obligations.ThirdCheckRaisesOutOfBounds := by
  refine ⟨fun start stopAt s hle hwidth hout => ?_, fun s hlen => ?_, fun start stopAt s hlen hle hwidth => ?_⟩
  · exact exec_of_check ((check_eq_outOfBounds_iff _ _ _).2 ⟨hle, by omega, by omega⟩)
  · obtain ⟨t, hexec, hresp⟩ := exec_of_valid (s := s) (valid_singleBit (p := 8 * s.buffer.len - 1) (by omega))
    exact ⟨t, _, hexec, hresp⟩
  · exact exec_of_check ((check_eq_outOfBounds_iff _ _ _).2 ⟨hle, by omega, by omega⟩)

/-- Settles O13: the response is an error exactly when its check fails (`answer_eq_err_iff`). -/
theorem firstCauseInOrderIsReported : Obligations.FirstCauseInOrderIsReported := by
  intro start stopAt s t hexec
  have herr (kind : ErrKind) :
      t.responses = s.responses ++ [.err kind] ↔ check start stopAt s.buffer.len = some kind := by
    rw [exec_responses hexec, ← answer_eq_err_iff]
    simp
  exact ⟨(herr _).trans (check_eq_invalidRange_iff _ _ _), (herr _).trans (check_eq_widthExceeded_iff _ _ _),
    (herr _).trans (check_eq_outOfBounds_iff _ _ _)⟩

/-- Settles O14: `execExtract_answers` for the operation, `step_completes` for the step. -/
theorem everyRequestIsAnswered : Obligations.EveryRequestIsAnswered := by
  refine ⟨fun start stopAt s => ?_, step_completes⟩
  obtain ⟨t, hexec, -, -, -, hresp⟩ := execExtract_answers start stopAt s
  exact ⟨t, _, hexec, hresp, answer_eq_ok_iff⟩

/-- On an empty buffer no position is in bounds (the spec's decision D14). -/
theorem check_of_empty (start stopAt : Nat) :
    check start stopAt 0 = some (if start > stopAt then .invalidRange
      else if stopAt - start ≥ 32 then .widthExceeded else .outOfBounds) := by
  split_ifs with horder hwidth
  · exact (check_eq_invalidRange_iff _ _ _).2 horder
  · exact (check_eq_widthExceeded_iff _ _ _).2 (by omega)
  · exact (check_eq_outOfBounds_iff _ _ _).2 (by omega)

/-- Settles O17: the error is that of the check on length 0. -/
theorem emptyBufferOnlyGivesErrors : Obligations.EmptyBufferOnlyGivesErrors := by
  intro start stopAt s hlen
  exact exec_of_check (by rw [hlen, check_of_empty])

/-- The wires hold `8 x len`: three bits more than the length has (R172). -/
theorem eightTimesLen_toNat (len : BitVec Config.lenw) :
    (len.setWidth (Config.lenw + 3) <<< 3).toNat = 8 * len.toNat := by
  have hlen : len.toNat < 2 ^ 29 := len.isLt
  rw [BitVec.toNat_shiftLeft, BitVec.toNat_setWidth_of_le (by decide), Nat.shiftLeft_eq]
  unfold Config.lenw
  omega

/-- With the first check passed the difference on the wires is that of the naturals (R66). -/
theorem wireWidth_iff {start stopAt : BitVec Config.posw} (hle : start ≤ stopAt) :
    31 < stopAt - start ↔ 32 < stopAt.toNat - start.toNat + 1 := by
  rw [BitVec.lt_def, BitVec.toNat_sub_of_le hle, show (31 : BitVec Config.posw).toNat = 31 from rfl]
  omega

/-- Settles O19: each of the three comparisons means on wires what it means on naturals. -/
theorem fixedWidthChecksDoNotWrap : Obligations.FixedWidthChecksDoNotWrap := by
  intro start stopAt len
  rw [check_eq, checkWires]
  by_cases horder : stopAt < start
  · rw [if_pos horder, if_pos (BitVec.lt_def.1 horder)]
  · have hbound : len.setWidth (Config.lenw + 3) <<< 3 ≤ stopAt ↔ 8 * len.toNat ≤ stopAt.toNat := by
      rw [BitVec.le_def, eightTimesLen_toNat]
    rw [if_neg horder, if_neg (mt BitVec.lt_def.2 horder)]
    simp only [wireWidth_iff (BitVec.not_lt.1 horder), hbound]

end Sys2Proof.Machine
end

section
/-! PROOFS. The outputs: the status code, the value and the response word (30_encoding.md R62, R63). -/

namespace Sys2Proof.Machine

theorem statusPort_of_responses_cons {s : State} {r : Response} {rest : List Response} (h : s.responses = r :: rest) :
    s.statusPort = some (statusCode r) := by simp [State.statusPort, h]

theorem statusPort_of_responses_nil {s : State} (h : s.responses = []) : s.statusPort = none := by
  simp [State.statusPort, h]

theorem valuePort_of_responses_cons {s : State} {v : Word} {rest : List Response} (h : s.responses = .ok v :: rest) :
    s.valuePort = v := by simp [State.valuePort, h]

theorem rspPort_of_responses_cons {s : State} {r : Response} {rest : List Response} (h : s.responses = r :: rest) :
    s.rspPort = some (statusCode r ++ s.valuePort) := by
  rw [State.rspPort, statusPort_of_responses_cons h, Option.map_some]

/-- Only a value has the status code 0. -/
theorem eq_ok_of_statusCode {r : Response} (h : statusCode r = 0) : ∃ v, r = .ok v := by
  cases r with
  | ok v => exact ⟨v, rfl⟩
  | err kind => cases kind <;> exact absurd h (by decide)

/-- Settles O20: the ports show the oldest response, and the halves of RSP are read back by the laws of
`++`. -/
theorem responseWordHoldsStatusAndValue : Obligations.ResponseWordHoldsStatusAndValue := by
  refine ⟨fun _ => rfl, rfl, rfl, rfl, fun s r rest hresp => ⟨?_, by simp [hresp], by simp [hresp]⟩,
    fun s hresp => ⟨?_, statusPort_of_responses_nil hresp, by simp [hresp], by simp [hresp]⟩⟩
  · refine ⟨_, rspPort_of_responses_cons hresp, BitVec.extractLsb'_append_eq_left,
      statusPort_of_responses_cons hresp, fun v hv => ?_⟩
    have hvalue := valuePort_of_responses_cons (hv ▸ hresp)
    exact ⟨BitVec.extractLsb'_append_eq_right.trans hvalue, hvalue⟩
  · rw [State.rspPort, statusPort_of_responses_nil hresp, Option.map_none]

/-- The value of an answer is the field of its range. -/
theorem toNat_of_answer_ok {b : Buffer} {start stopAt : Nat} {v : Word} (h : answer b start stopAt = .ok v) :
    v.toNat = b.field start stopAt := by
  have hv := valid_of_answer_ok h
  have ⟨_, hwidth, _⟩ := hv
  obtain rfl : BitVec.ofNat 32 (b.field start stopAt) = v := Response.ok.inj ((answer_of_valid hv).symm.trans h)
  exact field_toNat _ _ _ hwidth

/-- The response of a request, by the two halves of its word. -/
theorem answerOf_eq (r : Request) :
    answerOf r = answer r.buffer (r.word.extractLsb' 32 32).toNat (r.word.extractLsb' 0 32).toNat := by
  rw [answerOf, operandsAreTheHalvesOfTheWord]

/-- A step leaves the oldest response pending where it is. -/
theorem step_oldest_response {s t : State} {r : Response} {rest : List Response} (h : s.responses = r :: rest)
    (hstep : step s = .next t) : ∃ rest', t.responses = r :: rest' := by
  obtain ⟨-, rfl⟩ | ⟨q, _, -, -, -, -, hresp⟩ := step_next_cases hstep
  · exact ⟨rest, h⟩
  · exact ⟨rest ++ [answerOf q], by rw [hresp, h, List.cons_append]⟩

/-- Settles O21: the step's response is the oldest one when none was pending, and else the oldest one
stays. -/
theorem stepDrivesTheResponseWord : Obligations.StepDrivesTheResponseWord := by
  refine ⟨fun s q rest hq hnone => ?_, fun s r rest hresp => ?_⟩
  · obtain ⟨t, hstep, -, -, -, hadded⟩ := step_answers hq
    rw [hnone, List.nil_append] at hadded
    refine ⟨t, _, hstep, rspPort_of_responses_cons hadded, BitVec.extractLsb'_append_eq_left, fun hstatus => ?_⟩
    rw [BitVec.extractLsb'_append_eq_left] at hstatus
    obtain ⟨v, hv⟩ := eq_ok_of_statusCode hstatus
    rw [BitVec.extractLsb'_append_eq_right, valuePort_of_responses_cons (hv ▸ hadded)]
    exact toNat_of_answer_ok ((answerOf_eq q).symm.trans hv)
  · obtain ⟨t, hstep⟩ := step_completes s
    obtain ⟨rest', hkept⟩ := step_oldest_response hresp hstep
    refine ⟨t, hstep, ?_, fun v hv => ?_⟩
    · rw [statusPort_of_responses_cons hkept, statusPort_of_responses_cons hresp]
    · rw [rspPort_of_responses_cons hkept, rspPort_of_responses_cons hresp,
        valuePort_of_responses_cons (hv ▸ hkept), valuePort_of_responses_cons (hv ▸ hresp)]

end Sys2Proof.Machine
end

section
/-! PROOFS. The field of a range: its parts, its bytes, and the bytes of a buffer (20_memory.md R44, R47;
40_extract.md R94). -/

namespace Sys2Proof.Machine

/-- The definition with the positions listed instead of their distances from `s`. -/
theorem field_eq_sum (b : Buffer) (s e : Nat) :
    b.field s e = ((List.range' s (e + 1 - s)).map fun p => b.bit p <<< (e - p)).sum := by
  rw [Buffer.field, List.range'_eq_map_range, List.map_map]
  rfl

/-- A byte is the field of its eight positions. -/
theorem field_byte (b : Buffer) (k : Nat) : b.field (8 * k) (8 * k + 7) = (b.byteAt k).toNat := by
  apply Nat.eq_of_testBit_eq
  intro j
  rw [field_testBit, BitVec.testBit_toNat]
  by_cases hj : j < 8
  · rw [byteAt_getLsbD b (p := 8 * k + 7 - j) (by omega) hj, decide_eq_true (by omega), Bool.true_and]
  · rw [BitVec.getLsbD_of_ge _ _ (by omega), decide_eq_false (by omega), Bool.false_and]

/-- Whole bytes from byte `j`, the first most significant. -/
theorem field_wholeBytes (b : Buffer) (j n : Nat) (hn : 1 ≤ n) :
    b.field (8 * j) (8 * j + 8 * n - 1) =
      ((List.range' j n).map b.byteAt).foldl (fun a byte => cat a byte.toNat 8) 0 := by
  induction n, hn using Nat.le_induction with
  | base => simpa [cat] using field_byte b j
  | succ n hn ih =>
    have hcut : b.field (8 * j) (8 * j + 8 * (n + 1) - 1) =
        b.field (8 * j) (8 * j + 8 * n - 1) * 2 ^ 8 + (b.byteAt (j + n)).toNat := by
      rw [field_split b (m := 8 * j + 8 * n - 1) (by omega) (by omega), ← field_byte,
        show 8 * j + 8 * (n + 1) - 1 - (8 * j + 8 * n - 1) = 8 by omega,
        show 8 * j + 8 * n - 1 + 1 = 8 * (j + n) by omega,
        show 8 * j + 8 * (n + 1) - 1 = 8 * (j + n) + 7 by omega]
    rw [hcut, List.range'_1_concat, List.map_append, List.foldl_append, ← ih]
    exact (cat_eq_add _ _ 8 (b.byteAt (j + n)).isLt).symm

/-- Settles O23: the sum by `field_eq_sum`, the bound by `field_lt`, the bytes by `field_wholeBytes`. -/
theorem fieldIsBigEndian : Obligations.FieldIsBigEndian :=
  ⟨fun b s e _ _ => ⟨field_eq_sum b s e, field_lt b s e _ (by omega)⟩,
    fun b j n hn _ => field_wholeBytes b j n hn⟩

/-- A number moved up by `n` places and one of `n` bits have no bit in common. -/
theorem shiftLeft_and_eq_zero (a : Nat) {b n : Nat} (hb : b < 2 ^ n) : a <<< n &&& b = 0 := by
  apply Nat.eq_of_testBit_eq
  intro j
  rw [Nat.testBit_and, Nat.testBit_shiftLeft, Nat.zero_testBit]
  by_cases hj : n ≤ j
  · rw [Nat.testBit_lt_two_pow (lt_of_lt_of_le hb (Nat.pow_le_pow_right (by omega) hj)), Bool.and_false]
  · simp [hj]

/-- Settles O25: `field_split`, and the lower part fits the places it is given. -/
theorem fieldSplitsAtAnyPosition : Obligations.FieldSplitsAtAnyPosition := by
  intro b start m stopAt hstart hm
  have hsplit := field_split b (show start ≤ m + 1 by omega) (show m ≤ stopAt by omega)
  have hlow : b.field (m + 1) stopAt < 2 ^ (stopAt - m) := field_lt _ _ _ _ (by omega)
  refine ⟨?_, ?_, shiftLeft_and_eq_zero _ hlow⟩
  · rw [cat_eq_add _ _ _ hlow, hsplit]
  · rw [Nat.shiftLeft_eq, hsplit]

/-! ### Buffers as byte sequences -/

theorem wfFrom_cons_iff {least a : Nat} {byte : Byte} {rest : Memory} :
    Memory.wfFrom least ((a, byte) :: rest) = true ↔
      least ≤ a ∧ byte ≠ Memory.unlisted ∧ Memory.wfFrom (a + 1) rest = true := by
  simp [Memory.wfFrom, and_assoc]

/-- Below the least index of a canonical memory nothing is listed. -/
theorem lookup_of_wfFrom {least i : Nat} {m : Memory} (hm : Memory.wfFrom least m = true) (hi : i < least) :
    Memory.lookup m i = Memory.unlisted := by
  induction m generalizing least with
  | nil => rfl
  | cons c rest ih =>
    obtain ⟨a, byte⟩ := c
    obtain ⟨hle, -, hrest⟩ := wfFrom_cons_iff.1 hm
    rw [Memory.lookup, if_neg (by omega), ih hrest (by omega)]

theorem layOut_cons_unlisted {i : Nat} {byte : Byte} (bytes : List Byte) (h : byte = Memory.unlisted) :
    Memory.layOut i (byte :: bytes) = Memory.layOut (i + 1) bytes := by rw [Memory.layOut, if_pos h]

theorem layOut_cons_listed {i : Nat} {byte : Byte} (bytes : List Byte) (h : byte ≠ Memory.unlisted) :
    Memory.layOut i (byte :: bytes) = (i, byte) :: Memory.layOut (i + 1) bytes := by rw [Memory.layOut, if_neg h]

/-- A canonical memory is what its own bytes lay out to: by induction on how many bytes are left. -/
theorem layOut_lookup {n i : Nat} {m : Memory} (hm : Memory.wfFrom i m = true) (hlt : ∀ c ∈ m, c.1 < i + n) :
    Memory.layOut i ((List.range' i n).map (Memory.lookup m)) = m := by
  induction n generalizing i m with
  | zero =>
    cases m with
    | nil => rfl
    | cons c rest =>
      obtain ⟨hle, -, -⟩ := wfFrom_cons_iff.1 hm
      exact absurd (hlt c (by simp)) (Nat.not_lt.2 hle)
  | succ n ih =>
    rw [List.range'_succ, List.map_cons]
    cases m with
    | nil => rw [layOut_cons_unlisted (byte := Memory.lookup [] i) _ rfl, ih rfl (by simp)]
    | cons c rest =>
      obtain ⟨a, byte⟩ := c
      obtain ⟨hle, hbyte, hrest⟩ := wfFrom_cons_iff.1 hm
      by_cases ha : a = i
      · subst ha
        have hhere : Memory.lookup ((a, byte) :: rest) a = byte := if_pos rfl
        have habove : (List.range' (a + 1) n).map (Memory.lookup ((a, byte) :: rest)) =
            (List.range' (a + 1) n).map (Memory.lookup rest) := by
          refine List.map_congr_left fun p hp => if_neg ?_
          have := (List.mem_range'_1.1 hp).1
          omega
        rw [layOut_cons_listed _ (by rwa [hhere]), hhere, habove,
          ih hrest fun c hc => by have := hlt c (List.mem_cons_of_mem _ hc); omega]
      · have hm1 : Memory.wfFrom (i + 1) ((a, byte) :: rest) = true :=
          wfFrom_cons_iff.2 ⟨by omega, hbyte, hrest⟩
        rw [layOut_cons_unlisted _ (lookup_of_wfFrom hm1 (Nat.lt_succ_self i)),
          ih hm1 fun c hc => by have := hlt c hc; omega]

theorem ofBytes_toBytes {b : Buffer} (h : b.wf = true) : Buffer.ofBytes b.toBytes = b := by
  obtain ⟨len, m⟩ := b
  simp only [Buffer.wf, Memory.wf, Bool.and_eq_true, List.all_eq_true, decide_eq_true_eq] at h
  obtain ⟨hm, hlt⟩ := h
  have hmem := layOut_lookup (n := len) hm (by simpa using hlt)
  rw [← List.range_eq_range'] at hmem
  have hlength : (Buffer.toBytes ⟨len, m⟩).length = len := by simp [Buffer.toBytes]
  rw [Buffer.ofBytes, hlength]
  exact congrArg (Buffer.mk len) hmem

theorem toBytes_ofBytes (bytes : List Byte) : (Buffer.ofBytes bytes).toBytes = bytes := by
  apply List.ext_getElem
  · simp [Buffer.toBytes]
  · intro i _ hi
    simp [Buffer.toBytes, ofBytes_byteAt, hi]

theorem ofBytes_read (bytes : List Byte) (i : Nat) : (Buffer.ofBytes bytes).read i = bytes[i]? := by
  by_cases hi : i < bytes.length
  · rw [read_of_lt _ _ hi, ofBytes_byteAt]
    simp [hi]
  · rw [read_of_ge _ _ (Nat.not_lt.1 hi), List.getElem?_eq_none (Nat.not_lt.1 hi)]

/-- Settles O24: laying out and reading back are inverse in both directions. -/
theorem buffersHoldEveryByteSequence : Obligations.BuffersHoldEveryByteSequence :=
  ⟨ofBytes_read, fun bytes => ⟨ofBytes_wf bytes, toBytes_ofBytes bytes⟩, fun _ h => ofBytes_toBytes h⟩

end Sys2Proof.Machine
end

section
/-! PROOFS. What EXTRACT returns, what it depends on and what it leaves (40_extract.md R80, R88, R92, R96;
20_memory.md R42, R49, R53). -/

namespace Sys2Proof.Machine

/-- Settles O27: `execExtract_answers`, with the answer written out (`answer_eq`). -/
theorem extractFollowsItsPseudocode : Obligations.ExtractFollowsItsPseudocode := by
  refine ⟨fun start stopAt s => ?_, fun s hbuf => ?_⟩
  · obtain ⟨t, hexec, hbuf, hreq, hwalk, hresp⟩ := execExtract_answers start stopAt s
    exact ⟨t, hexec, by rw [hresp, answer_eq], hbuf, hreq, hwalk⟩
  · obtain ⟨t, hexec, -, -, -, hresp⟩ := execExtract_answers 8 8 s
    have hans : answer (Buffer.ofBytes [0x94, 0xE0, 0xF5, 0xA8, 0x03]) 8 8 = .ok 1 := by decide
    exact ⟨t, hexec, by rw [hresp, hbuf, hans]⟩

/-- Settles O29: the field of a byte is the byte (`field_byte`), of several bytes their concatenation
(`field_wholeBytes`). -/
theorem wholeByteExtraction : Obligations.WholeByteExtraction := by
  refine ⟨fun k s hk => ?_, fun j n s hn hn4 hlen => ?_⟩
  · have hv : Valid (8 * k) (8 * k + 7) s.buffer.len := ⟨by omega, by omega, by omega⟩
    have hbyte : fieldResponse s.buffer (8 * k) (8 * k + 7) = .ok ((s.buffer.byteAt k).setWidth 32) := by
      rw [fieldResponse, field_byte, BitVec.ofNat_toNat]
    exact hbyte ▸ exec_of_valid hv
  · have hwidth : 8 * j + 8 * n - 1 - 8 * j ≤ 31 := by omega
    obtain ⟨t, hexec, hresp⟩ := exec_of_valid (s := s) ⟨by omega, hwidth, by omega⟩
    exact ⟨t, _, hexec, hresp, by rw [field_toNat _ _ _ hwidth, field_wholeBytes _ _ _ hn]⟩

/-- Settles O30: bit 31 of the value is the first bit of the range (`fieldValue_getLsbD`). -/
theorem fullWidthResultIsUnsigned : Obligations.FullWidthResultIsUnsigned := by
  intro start s hbound hbit
  obtain ⟨t, hexec, hresp⟩ := exec_of_valid (s := s) (start := start) (stopAt := start + 31)
    ⟨by omega, by omega, hbound⟩
  have htop : (BitVec.ofNat 32 (s.buffer.field start (start + 31))).getLsbD 31 = true := by
    rw [fieldValue_getLsbD _ _ _ _ (by decide)]
    simp [hbit]
  exact ⟨t, _, hexec, hresp, htop, Nat.ge_two_pow_of_testBit htop⟩

/-- Settles O31: the response is the field, and the field depends on the bits of its range only
(`field_congr`). -/
theorem responseDependsOnlyOnTheBitsOfTheRange : Obligations.ResponseDependsOnlyOnTheBitsOfTheRange := by
  intro start stopAt s s' hv hv' hbits
  obtain ⟨t, hexec, hresp⟩ := exec_of_valid hv
  obtain ⟨t', hexec', hresp'⟩ := exec_of_valid hv'
  have hsame : fieldResponse s.buffer start stopAt = fieldResponse s'.buffer start stopAt := by
    rw [fieldResponse, fieldResponse, field_congr _ _ _ _ hbits]
  exact ⟨t, t', _, hexec, hexec', hresp, hsame ▸ hresp'⟩

/-- Where two buffers read alike inside both, their bytes are equal. -/
theorem byteAt_eq_of_read_eq {b b' : Buffer} {i : Nat} (hi : i < b.len) (hi' : i < b'.len)
    (h : b.read i = b'.read i) : b.byteAt i = b'.byteAt i := by
  rw [read_of_lt _ _ hi, read_of_lt _ _ hi'] at h
  exact Option.some.inj h

/-- Any response is a function of `start`, `end`, `len` and the bytes of the range (R49). -/
theorem answer_congr {b b' : Buffer} {start stopAt : Nat} (hlen : b.len = b'.len)
    (hbytes : ∀ i, start / 8 ≤ i → i ≤ stopAt / 8 → b.read i = b'.read i) :
    answer b start stopAt = answer b' start stopAt := by
  cases hc : check start stopAt b.len with
  | some kind => rw [answer_of_check hc, answer_of_check (hlen ▸ hc)]
  | none =>
    have hv := (check_eq_none_iff _ _ _).1 hc
    have ⟨_, _, hbound⟩ := hv
    have hbit : ∀ p, start ≤ p → p ≤ stopAt → b.bit p = b'.bit p := by
      intro p hlo hhi
      have hread := hbytes (p / 8) (Nat.div_le_div_right hlo) (Nat.div_le_div_right hhi)
      rw [bit_eq_getLsbD, bit_eq_getLsbD, byteAt_eq_of_read_eq (by omega) (by omega) hread]
    rw [answer_of_valid hv, answer_of_valid (hlen ▸ hv), fieldResponse, fieldResponse, field_congr _ _ _ _ hbit]

/-- Settles O32: both responses are the `answer`, which depends on no other byte (`answer_congr`). -/
theorem responseDependsOnlyOnTheBytesOfTheRange : Obligations.ResponseDependsOnlyOnTheBytesOfTheRange := by
  intro start stopAt s s' hlen hbytes
  obtain ⟨t, hexec, -, -, -, hresp⟩ := execExtract_answers start stopAt s
  obtain ⟨t', hexec', -, -, -, hresp'⟩ := execExtract_answers start stopAt s'
  refine ⟨fun ⟨hle, hwidth, _⟩ => by omega, t, t', _, hexec, hexec', hresp, ?_⟩
  rw [hresp', answer_congr hlen hbytes]

/-- Settles O33: the frame of EXTRACT (`execExtract_answers`), of a step that serves (`step_answers`) and of
an idle one (`step_idle`). -/
theorem bufferIsReadOnly : Obligations.BufferIsReadOnly := by
  refine ⟨fun start stopAt s => ?_, fun s r rest hq => ?_, fun s t hq hstep => ?_⟩
  · obtain ⟨t, hexec, hbuf, hreq, hwalk, -⟩ := execExtract_answers start stopAt s
    exact ⟨t, hexec, hbuf, fun a => by rw [hbuf], hreq, hwalk⟩
  · obtain ⟨t, hstep, hbuf, hrest, hwalk, -⟩ := step_answers hq
    exact ⟨t, hstep, hbuf, fun a => by rw [hbuf], hrest, hwalk⟩
  · exact Host.Outcome.next.inj (hstep.symm.trans (step_idle hq))

end Sys2Proof.Machine
end

section
/-! PROOFS. The parts of a chunk as numbers, and the additions that never carry (41_chunk_datapath.md R103,
R107, R110, R111). -/

namespace Sys2Proof.Machine

theorem lowPart_toNat (byte : Byte) (vbs : Nat) :
    (lowPart byte vbs).toNat = (byte.toNat >>> (8 - vbs)) &&& mask vbs := by
  rw [lowPart, and_mask8_toNat, BitVec.toNat_ushiftRight]

theorem lowPart_lt (byte : Byte) (vbs : Nat) : (lowPart byte vbs).toNat < 2 ^ vbs := by
  rw [lowPart_toNat, and_mask]
  exact Nat.mod_lt _ (Nat.two_pow_pos vbs)

/-- The bits moved up stay inside the byte, so `high` is the shifted number (R110). -/
theorem highPart_toNat (byte : Byte) {vbs : Nat} (hv : vbs ≤ 8) :
    (highPart byte vbs).toNat = (byte.toNat &&& mask (8 - vbs)) <<< vbs := by
  have hcut : byte.toNat % 2 ^ (8 - vbs) < 2 ^ (8 - vbs) := Nat.mod_lt _ (Nat.two_pow_pos _)
  have hfit : byte.toNat % 2 ^ (8 - vbs) * 2 ^ vbs < 2 ^ 8 := by
    calc byte.toNat % 2 ^ (8 - vbs) * 2 ^ vbs < 2 ^ (8 - vbs) * 2 ^ vbs :=
          Nat.mul_lt_mul_of_pos_right hcut (Nat.two_pow_pos vbs)
      _ = 2 ^ 8 := by rw [← Nat.pow_add, Nat.sub_add_cancel hv]
  rw [highPart, BitVec.toNat_shiftLeft, and_mask8_toNat, and_mask, Nat.shiftLeft_eq, Nat.mod_eq_of_lt hfit]

/-- `low` stands in the `vbs` places that `high` leaves free (R103). -/
theorem lowPart_add_highPart_toNat (here before : Byte) {vbs : Nat} (hv : vbs ≤ 8) :
    (lowPart here vbs + highPart before vbs).toNat = (lowPart here vbs).toNat + (highPart before vbs).toNat := by
  have hsum := cat_eq_add (before.toNat &&& mask (8 - vbs)) _ vbs (lowPart_lt here vbs)
  rw [lowPart_add_highPart here before vbs hv, BitVec.toNat_or, highPart_toNat before hv, Nat.lor_comm]
  rw [cat] at hsum
  rw [hsum, Nat.shiftLeft_eq, Nat.add_comm]

/-- A chunk added at byte `k` stands above the `8k` bits done: nothing carries and nothing is cut off
(R103). -/
theorem accumulate_noCarry {w : Walk} (chunk : Byte) (hk : w.k ≤ 3) (hacc : w.acc.toNat < 2 ^ (8 * w.k)) :
    (accumulate w chunk).toNat = w.acc.toNat + chunk.toNat * 2 ^ (8 * w.k) ∧
      chunk.toNat * 2 ^ (8 * w.k) < 2 ^ 32 := by
  have hchunk : chunk.toNat + 1 ≤ 2 ^ 8 := chunk.isLt
  have hfit : w.acc.toNat + chunk.toNat * 2 ^ (8 * w.k) < 2 ^ 32 := by
    calc w.acc.toNat + chunk.toNat * 2 ^ (8 * w.k) < (chunk.toNat + 1) * 2 ^ (8 * w.k) := by
          rw [Nat.succ_mul chunk.toNat]; omega
      _ ≤ 2 ^ 8 * 2 ^ (8 * w.k) := Nat.mul_le_mul_right _ hchunk
      _ = 2 ^ (8 + 8 * w.k) := (Nat.pow_add 2 8 (8 * w.k)).symm
      _ ≤ 2 ^ 32 := Nat.pow_le_pow_right (by decide) (by omega)
  rw [accumulate_toNat, Nat.mod_eq_of_lt hfit]
  exact ⟨rfl, by omega⟩

theorem accumulate_eq_or {w : Walk} (chunk : Byte) (hk : w.k ≤ 3) (hacc : w.acc.toNat < 2 ^ (8 * w.k)) :
    accumulate w chunk = w.acc ||| (chunk.setWidth 32 <<< (8 * w.k)) := by
  obtain ⟨hsum, hfit⟩ := accumulate_noCarry chunk hk hacc
  have hcat := cat_eq_add chunk.toNat _ (8 * w.k) hacc
  rw [cat, Nat.shiftLeft_eq] at hcat
  apply BitVec.eq_of_toNat_eq
  rw [hsum, BitVec.toNat_or, BitVec.toNat_shiftLeft, BitVec.toNat_setWidth_of_le (by decide), Nat.shiftLeft_eq,
    Nat.mod_eq_of_lt hfit, Nat.lor_comm, hcat, Nat.add_comm]

/-- Settles O42: each lower part fits the places below the part added to it. -/
theorem walkAdditionsNeverCarry : Obligations.WalkAdditionsNeverCarry := by
  refine ⟨fun here before vbs hv => ?_, fun w chunk hk hacc => ?_⟩
  · exact ⟨lowPart_add_highPart here before vbs hv, lowPart_add_highPart_toNat here before hv⟩
  · exact ⟨accumulate_eq_or chunk hk hacc, (accumulate_noCarry chunk hk hacc).1⟩

/-- `low` is the field from the start of the cursor's byte (R107). -/
theorem lowPart_toNat_eq_field (b : Buffer) (cur : Nat) :
    (lowPart (b.byteAt (byteIndex cur)) (validBits cur)).toNat = b.field (8 * byteIndex cur) cur := by
  apply Nat.eq_of_testBit_eq
  intro j
  rw [BitVec.testBit_toNat, lowPart_byteAt_getLsbD, field_testBit]
  congr 1
  exact decide_eq_decide.2 (by unfold validBits inByte byteIndex; omega)

/-- Settles O36: the slice is the shift and the mask of `low`, the field is read bit by bit. -/
theorem lowPartIsTheFieldUpToTheCursor : Obligations.LowPartIsTheFieldUpToTheCursor := by
  intro b cur _
  have hwidth : 7 - (8 - validBits cur) + 1 = validBits cur := by unfold validBits inByte; omega
  refine ⟨?_, lowPart_toNat_eq_field b cur, lowPart_lt _ _⟩
  rw [lowPart_toNat, slice, hwidth]

/-- A number whose bits count back from `cur`, cut to `n` of them, is the field of the `n` bits that end at
`cur`. -/
theorem and_mask_eq_field {b : Buffer} {x n cur : Nat} (hn : n ≤ cur + 1)
    (hbits : ∀ j < n, x.testBit j = decide (b.bit (cur - j) = 1)) :
    x &&& mask n = b.field (cur + 1 - n) cur := by
  apply Nat.eq_of_testBit_eq
  intro j
  rw [Nat.testBit_and, mask_testBit, field_testBit]
  by_cases hj : j < n
  · have hin : cur + 1 - n + j ≤ cur := by omega
    simp [hbits j hj, hj, hin]
  · have hout : ¬ cur + 1 - n + j ≤ cur := by omega
    simp [hj, hout]

/-- Two bytes side by side, shifted so that the cursor's bit comes to place 0, count back from the cursor; the
upper one matters only where the bits reach into it (R110, R122). -/
theorem bytePair_testBit {b : Buffer} {upper : Byte} {cur j : Nat} (hj : j < 8)
    (hupper : cur % 8 < j → 8 ≤ cur ∧ upper = b.byteAt (cur / 8 - 1)) :
    (cat upper.toNat (b.byteAt (cur / 8)).toNat 8 >>> (7 - cur % 8)).testBit j = decide (b.bit (cur - j) = 1) := by
  rw [Nat.testBit_shiftRight, cat_testBit, BitVec.testBit_toNat, BitVec.testBit_toNat]
  by_cases hreach : cur % 8 < j
  · obtain ⟨hcur, rfl⟩ := hupper hreach
    rw [decide_eq_true (by omega), Bool.true_and, BitVec.getLsbD_of_ge (b.byteAt (cur / 8)) _ (by omega),
      Bool.or_false]
    exact byteAt_getLsbD b (by omega) (by omega)
  · rw [decide_eq_false (by omega), Bool.false_and, Bool.false_or]
    exact byteAt_getLsbD b (by omega) (by omega)

/-- The chunk of a cross-byte step as the shifted pair of bytes (R110). -/
theorem crossChunk_toNat_eq_bytePair (b : Buffer) {cur : Nat} (hcur : 8 ≤ cur) :
    (crossChunk b cur).toNat =
      (cat (b.byteAt (cur / 8 - 1)).toNat (b.byteAt (cur / 8)).toNat 8 >>> (7 - cur % 8)) &&& mask 8 := by
  rw [and_mask_eq_field (b := b) (cur := cur) (by omega) fun j hj => bytePair_testBit hj fun _ => ⟨hcur, rfl⟩,
    crossChunk_toNat b cur hcur]
  rfl

/-- With the whole of the cursor's byte in `low` nothing of the byte before is taken. -/
theorem highPart_eight (byte : Byte) : highPart byte 8 = 0 := by
  apply BitVec.eq_of_toNat_eq
  rw [highPart_toNat byte (Nat.le_refl 8), Nat.sub_self, mask_zero, Nat.and_zero, Nat.zero_shiftLeft]
  rfl

theorem lowPart_eight (byte : Byte) : lowPart byte 8 = byte := by
  apply BitVec.eq_of_toNat_eq
  rw [lowPart_toNat, and_mask, Nat.sub_self, Nat.shiftRight_zero, Nat.mod_eq_of_lt byte.isLt]

/-- Settles O38: `high` by `highPart_toNat`, the chunk by `crossChunk_toNat` and as a pair of bytes. -/
theorem crossByteChunkIsEightBufferBits : Obligations.CrossByteChunkIsEightBufferBits := by
  intro b start cur _ hbyte
  have hcur : 8 ≤ cur := by omega
  have hv : cur % 8 + 1 ≤ 8 := by omega
  refine ⟨_, _, _, rfl, rfl, highPart_toNat _ hv, ?_, rfl, lowPart_add_highPart_toNat _ _ hv,
    crossChunk_toNat b cur hcur, crossChunk_toNat_eq_bytePair b hcur, fun hlast => ?_⟩
  · rw [highPart_toNat _ hv, Nat.shiftLeft_eq, Nat.mul_mod_left]
  · rw [hlast, highPart_eight, lowPart_eight, add_zero]
    exact ⟨rfl, rfl⟩

/-- Settles O40: `walkStep_crossFinal` gives the next state, and its chunk is cut to the bits left
(`cutChunk_toNat`). -/
theorem crossByteFinalStepEndsTheWalk : Obligations.CrossByteFinalStepEndsTheWalk := by
  intro start s w hw hle hbound hbyte hrem
  have hcross : sameByte start w.cur = false := (sameByte_eq_false_iff _ _).2 (by omega)
  refine ⟨_, walkStep_crossFinal hw (by omega) hcross hrem, rfl, cutChunk_toNat hle hrem fun j hj => ?_⟩
  have hj8 : j < 8 := lt_of_lt_of_le hj hrem
  rw [crossChunk_getLsbD _ _ _ (by omega), decide_eq_true hj8, Bool.true_and]

end Sys2Proof.Machine
end

section
/-! PROOFS. The bytes the walk reads (41_chunk_datapath.md R120, 20_memory.md R48, R53). -/

namespace Sys2Proof.Machine

theorem withByte_of_ge (i : Nat) (s : State) (go : Byte → StepOutcome) (h : s.buffer.len ≤ i) :
    withByte i s go = .fault .bufferIndexOutside := by
  rw [withByte, read_of_ge _ _ h]

theorem walkStep_outside {start : Nat} {s : State} {w : Walk} (h : s.walk = some w)
    (hlen : s.buffer.len ≤ w.cur / 8) : walkStep start s = .fault .bufferIndexOutside := by
  rw [walkStep, h]
  exact withByte_of_ge _ _ _ hlen

/-- The next state of a chunk step inside the buffer, by the two tests it makes. -/
theorem walkStep_inside {start : Nat} {s : State} {w : Walk} (h : s.walk = some w) (hlen : w.cur / 8 < s.buffer.len) :
    walkStep start s = .next (
      if sameByte start w.cur then
        finishWalk start w (lowPart (s.buffer.byteAt (byteIndex w.cur)) (validBits w.cur)) s
      else if spanWidth start w.cur ≤ 8 then finishWalk start w (crossChunk s.buffer w.cur) s
      else advanceWalk w (crossChunk s.buffer w.cur) s) := by
  split_ifs with hsame hrem
  · exact walkStep_sameByte h hlen hsame
  · exact walkStep_crossFinal h hlen (eq_false_of_ne_true hsame) hrem
  · exact walkStep_crossGoesOn h hlen (eq_false_of_ne_true hsame) (Nat.lt_of_not_le hrem)

/-- The indices a step reads: those of the range from the cursor's byte to the one before. -/
theorem mem_stepReads {start cur i : Nat} (hle : start ≤ cur) :
    i ∈ stepReads start cur ↔ start / 8 ≤ i ∧ i ≤ cur / 8 ∧ cur / 8 ≤ i + 1 := by
  cases hb : sameByte start cur with
  | true =>
    have hbyte := (sameByte_iff _ _).1 hb
    simp only [stepReads, hb, if_true, List.mem_singleton, byteIndex]
    omega
  | false =>
    have hbyte := (sameByte_eq_false_iff_lt hle).1 hb
    simp only [stepReads, hb, Bool.false_eq_true, if_false, List.mem_cons, List.not_mem_nil, or_false, byteIndex]
    omega

theorem byteIndex_mem_stepReads (start cur : Nat) : byteIndex cur ∈ stepReads start cur := by
  rw [stepReads]; split_ifs <;> simp

theorem byteBefore_mem_stepReads {start cur : Nat} (h : ¬ sameByte start cur = true) :
    byteIndex cur - 1 ∈ stepReads start cur := by
  rw [stepReads, if_neg h]; simp

theorem le_of_mem_stepReads {start cur i : Nat} (h : i ∈ stepReads start cur) : i ≤ cur / 8 := by
  unfold stepReads byteIndex at h
  split_ifs at h <;> simp at h <;> omega

/-- All a step reads lies in the buffer when the cursor's byte does. -/
theorem stepReads_inside_iff (start cur len : Nat) : (∀ i ∈ stepReads start cur, i < len) ↔ cur / 8 < len :=
  ⟨fun h => h _ (byteIndex_mem_stepReads start cur), fun h _ hi => lt_of_le_of_lt (le_of_mem_stepReads hi) h⟩

theorem walkStep_completes_iff {start : Nat} {s : State} {w : Walk} (h : s.walk = some w) :
    Completes (walkStep start s) ↔ w.cur / 8 < s.buffer.len := by
  refine ⟨fun ⟨t, ht⟩ => Nat.lt_of_not_le fun hout => ?_, fun hlen => ⟨_, walkStep_inside h hlen⟩⟩
  rw [walkStep_outside h hout] at ht
  cases ht

theorem walkStep_fault_iff {start : Nat} {s : State} {w : Walk} (h : s.walk = some w) :
    walkStep start s = .fault .bufferIndexOutside ↔ s.buffer.len ≤ w.cur / 8 := by
  refine ⟨fun hf => Nat.le_of_not_lt fun hlen => ?_, walkStep_outside h⟩
  rw [walkStep_inside h hlen] at hf
  cases hf

/-- What a chunk step leaves depends on the bytes it reads and on no other. -/
theorem walkStep_congr {start : Nat} {s s' t t' : State} {w : Walk} (hw : s.walk = some w) (hw' : s'.walk = some w)
    (hresp : s'.responses = s.responses) (hreads : ∀ i ∈ stepReads start w.cur, s'.buffer.read i = s.buffer.read i)
    (hstep : walkStep start s = .next t) (hstep' : walkStep start s' = .next t') :
    t'.responses = t.responses ∧ t'.walk = t.walk := by
  have hlen := (walkStep_completes_iff hw).1 ⟨t, hstep⟩
  have hlen' := (walkStep_completes_iff hw').1 ⟨t', hstep'⟩
  have hbyte (i : Nat) (hi : i ∈ stepReads start w.cur) : s'.buffer.byteAt i = s.buffer.byteAt i := by
    have hin := le_of_mem_stepReads hi
    exact byteAt_eq_of_read_eq (by omega) (by omega) (hreads i hi)
  have hhere := hbyte _ (byteIndex_mem_stepReads start w.cur)
  rw [walkStep_inside hw hlen] at hstep
  rw [walkStep_inside hw' hlen'] at hstep'
  cases hstep
  cases hstep'
  split_ifs with hsame hrem
  · simp [hhere, hresp]
  · simp [crossChunk, hhere, hbyte _ (byteBefore_mem_stepReads hsame), hresp]
  · simp [crossChunk, hhere, hbyte _ (byteBefore_mem_stepReads hsame), hresp]

/-- Over the whole walk the indices read are those of the bytes of the range: the step that reads byte `i` is
that of the cursor in it, or the last. -/
theorem mem_walkReads {start stopAt i : Nat} (hle : start ≤ stopAt) :
    i ∈ walkReads start stopAt ↔ start / 8 ≤ i ∧ i ≤ stopAt / 8 := by
  unfold walkReads spanWidth
  rw [List.mem_flatMap]
  constructor
  · rintro ⟨j, hj, hi⟩
    rw [List.mem_range] at hj
    rw [mem_stepReads (by omega)] at hi
    omega
  · rintro ⟨hlo, hhi⟩
    refine ⟨min (stopAt / 8 - i) ((stopAt - start + 1 + 7) / 8 - 1), List.mem_range.2 (by omega), ?_⟩
    rw [mem_stepReads (by omega)]
    omega

/-- Settles O41: a step by the byte of its cursor, the walk by `mem_walkReads`, and the counts by arithmetic. -/
theorem walkReadsExactlyTheBytesOfTheRange : Obligations.WalkReadsExactlyTheBytesOfTheRange := by
  refine ⟨fun start s w hw => ⟨?_, ?_⟩, fun start s s' t t' w hw hw' hresp hreads hstep hstep' => ?_,
    fun start stopAt len hv => ?_⟩
  · rw [stepReads_inside_iff]
    exact walkStep_completes_iff hw
  · have houtside := not_congr (stepReads_inside_iff start w.cur s.buffer.len)
    push Not at houtside
    exact (walkStep_fault_iff hw).trans houtside.symm
  · exact walkStep_congr hw hw' hresp hreads hstep hstep'
  · obtain ⟨hle, hwidth, hbound⟩ := hv
    refine ⟨fun i => mem_walkReads hle, fun i hi => ?_, by omega, by omega, by omega⟩
    have hin := (mem_walkReads hle).1 hi
    omega

end Sys2Proof.Machine
end

section
/-! PROOFS. The other forms of the value of a valid request: bit by bit, by one window, by four stages
(40_extract.md R86, R89; 41_chunk_datapath.md R116, R122). -/

namespace Sys2Proof.Machine

/-! ### The per-bit form -/

/-- The per-bit form shifts the next bit in at the bottom (R86). -/
theorem oracle_succ (b : Buffer) {start p : Nat} (h : start ≤ p + 1) :
    oracle b start (p + 1) = (oracle b start p <<< 1) ||| b.bit (p + 1) := by
  rw [oracle, oracle, Nat.succ_sub h, List.range'_1_concat, List.foldl_append, Nat.add_sub_cancel' h]
  rfl

theorem oracle_eq_field (b : Buffer) {start p : Nat} (h : start ≤ p) : oracle b start p = b.field start p := by
  induction p, h using Nat.le_induction with
  | base => simp [oracle, field_self]
  | succ p hle ih =>
    have hjoin := cat_eq_add (b.field start p) _ 1 (bit_lt_two b (p + 1))
    rw [oracle_succ b (by omega), ih, field_succ b start p (by omega), Nat.mul_comm]
    exact hjoin

/-- Settles O46: by induction on the position, one bit at a time (`oracle_succ`, `field_succ`). -/
theorem oracleIsTheField : Obligations.OracleIsTheField := by
  intro b start p hle
  refine ⟨oracle_eq_field b hle, ?_, oracle_succ b (by omega)⟩
  rw [oracle_eq_field b hle]
  exact field_lt _ _ _ _ (by omega)

/-! ### The window form -/

/-- The five bytes of the window by place: byte `i / 8` back from the last. -/
theorem window_getLsbD (b : Buffer) (start stopAt : Nat) {i : Nat} (hi : i < 40) :
    (window b start stopAt).getLsbD i = (windowByte b start (byteIndex stopAt) (i / 8)).getLsbD (i % 8) := by
  simp only [window, BitVec.getLsbD_append]
  split_ifs with h0 h1 h2 h3
  · rw [show i / 8 = 0 by omega, show i % 8 = i by omega]
  · rw [show i / 8 = 1 by omega, show i % 8 = i - 8 by omega]
  · rw [show i / 8 = 2 by omega, show i % 8 = i - 8 - 8 by omega]
  · rw [show i / 8 = 3 by omega, show i % 8 = i - 8 - 8 - 8 by omega]
  · rw [show i / 8 = 4 by omega, show i % 8 = i - 8 - 8 - 8 - 8 by omega]

/-- Settles O47: shifted by `7 - end % 8`, the window counts the bits of the range back from its end. -/
theorem windowFormIsTheField : Obligations.WindowFormIsTheField := by
  intro b start stopAt ⟨hle, hwidth, _⟩
  have hspan : spanWidth start stopAt = stopAt - start + 1 := rfl
  rw [windowForm, and_mask_eq_field (b := b) (cur := stopAt) (by omega),
    show stopAt + 1 - spanWidth start stopAt = start by omega]
  intro j hj
  rw [Nat.testBit_shiftRight, BitVec.testBit_toNat]
  unfold inByte
  rw [window_getLsbD b start stopAt (by omega), windowByte, if_pos (by unfold byteIndex; omega)]
  exact byteAt_getLsbD b (by unfold byteIndex; omega) (by omega)

/-! ### The unrolled form -/

/-- Byte `i` of the result is the field of at most eight bits that end at `end - 8i` (R116). -/
theorem slice_field (b : Buffer) {start stopAt i : Nat} (hi : 8 * i < stopAt - start + 1) :
    slice (b.field start stopAt) (8 * i + 7) (8 * i) =
      b.field (max start (stopAt - 8 * i - 7)) (stopAt - 8 * i) := by
  apply Nat.eq_of_testBit_eq
  intro j
  rw [slice_testBit, field_testBit, field_testBit, Nat.sub_add_eq]
  by_cases hj : start + (8 * i + j) ≤ stopAt ∧ j < 8
  · obtain ⟨hin, hj8⟩ := hj
    have hrange : max start (stopAt - 8 * i - 7) + j ≤ stopAt - 8 * i := by omega
    simp [hin, hrange, hj8]
  · have hrange : ¬ max start (stopAt - 8 * i - 7) + j ≤ stopAt - 8 * i := by omega
    have hplace : ¬ (start + (8 * i + j) ≤ stopAt ∧ j < 8 * i + 7 - 8 * i + 1) := by omega
    rw [decide_eq_false hrange, Bool.false_and, Bool.and_right_comm, ← Bool.decide_and, decide_eq_false hplace,
      Bool.false_and]

/-- An active stage is the field of at most eight bits that end at its cursor (R122). -/
theorem stageChunk_toNat {b : Buffer} {start stopAt i : Nat} (hle : start ≤ stopAt)
    (hi : 8 * i < spanWidth start stopAt) :
    (stageChunk b start stopAt i).toNat = b.field (max start (stopAt - 8 * i - 7)) (stopAt - 8 * i) := by
  have hspan : spanWidth start stopAt = stopAt - start + 1 := rfl
  have hbyte : byteIndex stopAt - i = (stopAt - 8 * i) / 8 := by unfold byteIndex; omega
  have hplace : inByte stopAt = (stopAt - 8 * i) % 8 := by unfold inByte; omega
  have hwidth : min 8 (spanWidth start stopAt - 8 * i) ≤ stopAt - 8 * i + 1 := by omega
  have hlow : stopAt - 8 * i + 1 - min 8 (spanWidth start stopAt - 8 * i) = max start (stopAt - 8 * i - 7) := by omega
  simp only [stageChunk, if_pos hi]
  rw [hbyte, hplace, BitVec.toNat_ofNat, BitVec.toNat_ushiftRight, BitVec.toNat_append, ← cat,
    and_mask_eq_field (b := b) (cur := stopAt - 8 * i) hwidth, hlow, Nat.mod_eq_of_lt (field_lt _ _ _ _ (by omega))]
  intro j hj
  refine bytePair_testBit (by omega) fun hreach => ⟨by omega, ?_⟩
  rw [if_pos (by unfold byteIndex; omega)]

/-- Settles O45: the slice of the field by `slice_field`, the stage by `stageChunk_toNat`. -/
theorem chunkIsAByteOfTheResult : Obligations.ChunkIsAByteOfTheResult := by
  intro b start stopAt i ⟨hle, _, _⟩ hi
  exact ⟨slice_field b hi, (stageChunk_toNat hle hi).trans (slice_field b hi).symm⟩

/-- Every stage, active or not, holds its eight places of the field. -/
theorem stageChunk_getLsbD (b : Buffer) {start stopAt i j : Nat} (hle : start ≤ stopAt) (hj : j < 8) :
    (stageChunk b start stopAt i).getLsbD j = (b.field start stopAt).testBit (8 * i + j) := by
  by_cases hi : 8 * i < spanWidth start stopAt
  · have hplace : j < 8 * i + 7 - 8 * i + 1 := by omega
    rw [← BitVec.testBit_toNat, stageChunk_toNat hle hi, ← slice_field b hi, slice_testBit, decide_eq_true hplace,
      Bool.and_true]
  · have hout : ¬ start + (8 * i + j) ≤ stopAt := by unfold spanWidth at hi; omega
    simp [stageChunk, hi, field_testBit, hout]

/-- Settles O48: place by place, each in its stage (`stageChunk_getLsbD`). -/
theorem unrolledFormIsTheField : Obligations.UnrolledFormIsTheField := by
  intro b start stopAt ⟨hle, hwidth, _⟩
  rw [← field_toNat b start stopAt hwidth]
  congr 1
  apply BitVec.eq_of_getLsbD_eq
  intro i hi
  have hstage (n : Nat) (hn : i / 8 = n) :
      (stageChunk b start stopAt n).getLsbD (i - 8 * n) = (b.field start stopAt).testBit i := by
    rw [stageChunk_getLsbD b hle (by omega), show 8 * n + (i - 8 * n) = i by omega]
  simp only [unrolledForm, BitVec.getLsbD_append, BitVec.getLsbD_ofNat, hi, decide_true, Bool.true_and]
  split_ifs with h0 h1 h2
  · exact hstage 0 (by omega)
  · exact hstage 1 (by omega)
  · rw [Nat.sub_sub]; exact hstage 2 (by omega)
  · rw [Nat.sub_sub, Nat.sub_sub]; exact hstage 3 (by omega)

end Sys2Proof.Machine
end

section
/-! PROOFS. The source's walk as literally worded: its last step either takes the bits left in one byte, or
takes eight across two bytes and then asks for a mask of `rem - 8` bits (41_chunk_datapath.md R117). -/

namespace Sys2Proof.Machine

theorem literalWalk_sameByte (b : Buffer) {start cur : Nat} (fuel k acc : Nat) (h : sameByte start cur = true) :
    literalWalk b start (fuel + 1) cur k acc =
      if cur + 1 < start then none
      else some (acc + (((lowPart (b.byteAt (byteIndex cur)) (validBits cur)).toNat &&& mask (cur + 1 - start)) <<<
        (8 * k)), k + 1) := by
  rw [literalWalk]
  exact if_pos h

/-- Across two bytes the wording always takes eight bits, with no test of how many are left. -/
theorem literalWalk_crossByte (b : Buffer) {start cur : Nat} (fuel k acc : Nat) (h : sameByte start cur = false) :
    literalWalk b start (fuel + 1) cur k acc =
      literalWalk b start fuel (cur - 8) (k + 1) (acc + (crossChunk b cur).toNat <<< (8 * k)) := by
  rw [literalWalk, crossChunk, lowPart_add_highPart_toNat _ _ (validBits_le_eight cur)]
  exact if_neg (by simp [h])

/-- Below the range, in the byte of `start`, the wording has a meaning only with the cursor right before
`start`, and then adds nothing. -/
theorem literalWalk_past (b : Buffer) {start cur : Nat} (fuel k acc : Nat) (hpast : cur < start)
    (h : sameByte start cur = true) :
    literalWalk b start (fuel + 1) cur k acc = if cur + 1 = start then some (acc, k + 1) else none := by
  rw [literalWalk_sameByte b fuel k acc h]
  by_cases hnext : cur + 1 = start
  · rw [if_neg (by omega), if_pos hnext, hnext, Nat.sub_self, mask_zero, Nat.and_zero, Nat.zero_shiftLeft,
      Nat.add_zero]
  · rw [if_pos (by omega), if_neg hnext]

/-- The bits done and a chunk above them make the field from the chunk's first bit. -/
theorem field_add_chunk (b : Buffer) {lo cur k : Nat} (hlo : lo ≤ cur + 1) :
    b.field (cur + 1) (cur + 8 * k) + b.field lo cur <<< (8 * k) = b.field lo (cur + 8 * k) := by
  rw [field_split b hlo (Nat.le_add_right cur (8 * k)), Nat.add_sub_cancel_left, Nat.shiftLeft_eq, Nat.add_comm]

/-- What the literal walk of `(start, end)` gives, with `r` the bits left for the last step. -/
def literalOutcome (b : Buffer) (start stopAt r : Nat) : Option (Nat × Nat) :=
  if r < 8 ∧ start % 8 + r > 8 then none
  else some (b.field start stopAt, (stopAt - start + 1 + 7) / 8 + if r = 8 ∧ start % 8 ≠ 0 then 1 else 0)

/-- From a cursor in the range with `k` chunks done, by induction on the fuel: it suffices for the steps left
and one more. -/
theorem literalWalk_eq (b : Buffer) {start cur k fuel : Nat} (hle : start ≤ cur)
    (hfuel : cur - start + 1 + 8 ≤ 8 * fuel) :
    literalWalk b start fuel cur k (b.field (cur + 1) (cur + 8 * k)) =
      literalOutcome b start (cur + 8 * k) ((cur - start) % 8 + 1) := by
  induction fuel generalizing cur k with
  | zero => omega
  | succ fuel ih =>
    unfold literalOutcome
    cases hb : sameByte start cur with
    | true =>
      have hbyte := (sameByte_iff _ _).1 hb
      have hchunk := sameByteChunk_toNat b hle hbyte
      rw [and_mask8_toNat, show spanWidth start cur = cur + 1 - start by unfold spanWidth; omega] at hchunk
      rw [literalWalk_sameByte b fuel k _ hb, if_neg (by omega), hchunk, field_add_chunk b (by omega),
        if_neg (by omega), if_neg (by omega), show (cur + 8 * k - start + 1 + 7) / 8 + 0 = k + 1 by omega]
    | false =>
      have hbyte := (sameByte_eq_false_iff_lt hle).1 hb
      have hcur : 8 ≤ cur := by omega
      have hacc : b.field (cur + 1) (cur + 8 * k) + (crossChunk b cur).toNat <<< (8 * k) =
          b.field (cur - 8 + 1) (cur - 8 + 8 * (k + 1)) := by
        rw [crossChunk_toNat b cur hcur, field_add_chunk b (by omega), show cur - 7 = cur - 8 + 1 by omega,
          show cur + 8 * k = cur - 8 + 8 * (k + 1) by omega]
      rw [literalWalk_crossByte b fuel k _ hb, hacc]
      rcases Nat.lt_or_ge (cur - start + 1) 9 with hlast | hmore
      · obtain ⟨fuel, rfl⟩ : ∃ n, fuel = n + 1 := ⟨fuel - 1, by omega⟩
        rw [literalWalk_past b fuel (k + 1) _ (by omega) ((sameByte_iff _ _).2 (by omega))]
        by_cases hr : cur - 8 + 1 = start
        · rw [if_pos hr, if_neg (by omega), if_pos (by omega), hr, show cur - 8 + 8 * (k + 1) = cur + 8 * k by omega,
            show (cur + 8 * k - start + 1 + 7) / 8 + 1 = k + 1 + 1 by omega]
        · rw [if_neg hr, if_pos (by omega)]
      · rw [ih (by omega) (by omega), literalOutcome, show cur - 8 + 8 * (k + 1) = cur + 8 * k by omega,
          show (cur - 8 - start) % 8 = (cur - start) % 8 by omega]

/-- Settles O49: `literalWalk_eq` from `end`, where nothing is done yet, with fuel for the five steps that 32
bits can take. -/
theorem literalWalkAgreesWhereItHasAMeaning : Obligations.LiteralWalkAgreesWhereItHasAMeaning := by
  rintro b start stopAt r ⟨hle, hwidth, _⟩ rfl
  have hwalk := literalWalk_eq b (k := 0) (fuel := 5) hle (by omega)
  rwa [field_empty b (stopAt + 1) (stopAt + 8 * 0) (by omega)] at hwalk

end Sys2Proof.Machine
end
